-- ==== Sys2Proof/Word.lean ====
section
/-! DEFINITION. The word types of the machine: bytes, 16-bit words, 12-bit addresses as they stand in an
instruction, and register indices (00_scope.md R7, R8; 10_state.md R20). -/

namespace Sys2Proof

/-- An 8-bit value: a register, a timer, a memory byte, the immediate `kk` (R5). -/
abbrev Byte := BitVec 8

/-- A 16-bit value: I, PC, a stack entry, an instruction word (R5). -/
abbrev Word := BitVec 16

/-- The 12-bit address immediate `nnn` (R71). -/
abbrev Addr12 := BitVec 12

/-- The index of a general register, 0 to 15: the fields `x` and `y` (R20, R71). -/
abbrev Reg := Fin 16

end Sys2Proof
end

