-- ==== Sys2Proof/Config.lean ====
section
/-! DEFINITION. What is fixed for the machine (00_scope.md R5) and what the spec leaves to the outside
(00_scope.md R6). The default FONT stands in Machine/Font.lean. -/

namespace Sys2Proof

/-- DESIGN CHOICE (log 1), safe. The byte the randomness source supplies to the `k`-th execution of RND: a free
value, nothing about it can be proved (10_state.md R38, 42_alu.md R133, U7: any value at every execution). -/
opaque Config.rnd : Nat → Byte

/-- The number of addressable bytes; addresses are 0x000 to 0xFFF (R5, R30). -/
abbrev Config.memSize : Nat := 0x1000

/-- The highest address from which an instruction word can be fetched (R53). -/
abbrev Config.lastFetch : Nat := 0xFFE

/-- The program origin (R5, R56, R204). -/
abbrev Config.progStart : Nat := 0x200

/-- The largest program image, 0x200 to 0xFFF (R5, R204). -/
abbrev Config.maxImage : Nat := 0xE00

/-- The number of return addresses the call stack holds (R5, R31). -/
abbrev Config.stackDepth : Nat := 16

end Sys2Proof
end

