-- ==== Sys2Proof/Syntax.lean ====
section
/-! DEFINITION. The instructions: one constructor per row of spec/opcode_table.json, in the order of
30_encoding.md R78. Operands are the fields of R71 the row names: `x`, `y` register indices, `kk` a byte,
`nnn` a 12-bit address, `n` a row count. -/

namespace Sys2Proof

/-- The 34 instructions of 30_encoding.md R78. -/
inductive Instr where
  /-- 00E0, clear-display (44_display.md R150). -/
  | cls
  /-- 00EE, return (41_control_flow.md R102). -/
  | ret
  /-- 1nnn, jump nnn (R100). -/
  | jp (nnn : Addr12)
  /-- 2nnn, call nnn (R101). -/
  | call (nnn : Addr12)
  /-- 3xkk, skip-equal-immediate (R104). -/
  | seImm (x : Reg) (kk : Byte)
  /-- 4xkk, skip-not-equal-immediate (R105). -/
  | sneImm (x : Reg) (kk : Byte)
  /-- 5xy0, skip-equal-reg (R106). -/
  | seReg (x y : Reg)
  /-- 6xkk, load immediate (42_alu.md R121). -/
  | ldImm (x : Reg) (kk : Byte)
  /-- 7xkk, add immediate (R122). -/
  | addImm (x : Reg) (kk : Byte)
  /-- 8xy0, register-to-register MOV (R123). -/
  | ldReg (x y : Reg)
  /-- 8xy1, register-to-register OR (R124). -/
  | orReg (x y : Reg)
  /-- 8xy2, register-to-register AND (R125). -/
  | andReg (x y : Reg)
  /-- 8xy3, register-to-register XOR (R126). -/
  | xorReg (x y : Reg)
  /-- 8xy4, add registers (R127). -/
  | addReg (x y : Reg)
  /-- 8xy5, subtract Vx - Vy (R128). -/
  | sub (x y : Reg)
  /-- 8xy6, shift-right (R130); `y` is in the word and ignored (R74). -/
  | shr (x y : Reg)
  /-- 8xy7, subtract Vy - Vx, stored in Vx (R129). -/
  | subn (x y : Reg)
  /-- 8xyE, shift-left (R131); `y` is in the word and ignored (R74). -/
  | shl (x y : Reg)
  /-- 9xy0, skip-not-equal-reg (R107). -/
  | sneReg (x y : Reg)
  /-- Annn, set index nnn (43_index_memory.md R140). -/
  | ldI (nnn : Addr12)
  /-- Bnnn, jump-with-offset (R103). -/
  | jpV0 (nnn : Addr12)
  /-- Cxkk, random-and-mask (R133). -/
  | rnd (x : Reg) (kk : Byte)
  /-- Dxyn, draw sprite (R151); `n` is a count of rows, 0 to 15 (R74). -/
  | drw (x y : Reg) (n : Nat)
  /-- Ex9E, skip-if-key-pressed (45_keypad_timers.md R160). -/
  | skp (x : Reg)
  /-- ExA1, skip-if-key-not-pressed (R161). -/
  | sknp (x : Reg)
  /-- Fx07, load-delay-timer (R162). -/
  | ldVxDt (x : Reg)
  /-- Fx0A, wait-for-key (R163). -/
  | ldVxK (x : Reg)
  /-- Fx15, set-delay-timer (R164). -/
  | ldDtVx (x : Reg)
  /-- Fx18, set-sound-timer (R165). -/
  | ldStVx (x : Reg)
  /-- Fx1E, add-to-index (R141). -/
  | addI (x : Reg)
  /-- Fx29, index-to-font-sprite (R142). -/
  | ldF (x : Reg)
  /-- Fx33, store-BCD (R144). -/
  | ldB (x : Reg)
  /-- Fx55, register-dump (R145); `x` is the index of the last register. -/
  | stRegs (x : Reg)
  /-- Fx65, register-load (R146); `x` is the index of the last register. -/
  | ldRegs (x : Reg)
  deriving DecidableEq, Repr

end Sys2Proof
end

