-- ==== Sys2Proof/Decode.lean ====
section
/-! DEFINITION. From words to instructions and back (30_encoding.md R70 to R82): the fields of a word, the
dispatch on its nibbles, the encoder, and the decoder over a list of bytes in memory order. -/

namespace Sys2Proof

/-- The first nibble, `op[15:12]` (R71). -/
def fieldMajor (op : Word) : BitVec 4 := op.extractLsb' 12 4

/-- The field `x = op[11:8]` (R71). -/
def fieldX (op : Word) : Reg := (op.extractLsb' 8 4).toFin

/-- The field `y = op[7:4]` (R71). -/
def fieldY (op : Word) : Reg := (op.extractLsb' 4 4).toFin

/-- The field `n = op[3:0]`, an unsigned count or a minor opcode (R71, R74). -/
def fieldN (op : Word) : Nat := (op.extractLsb' 0 4).toNat

/-- The field `kk = op[7:0]` (R71). -/
def fieldKk (op : Word) : Byte := op.extractLsb' 0 8

/-- The field `nnn = op[11:0]` (R71). -/
def fieldNnn (op : Word) : Addr12 := op.extractLsb' 0 12

/-- First nibble 0x0: all 16 bits are fixed (format Z; R77, R79 (a)). -/
def decodeGroup0 (op : Word) : Option Instr :=
  if op = 0x00E0#16 then some .cls
  else if op = 0x00EE#16 then some .ret
  else none

/-- First nibble 0x8: selected by `n` (format XY; R77, R79 (c)). -/
def decodeGroup8 (op : Word) : Option Instr :=
  let x := fieldX op
  let y := fieldY op
  match fieldN op with
  | 0x0 => some (.ldReg x y)
  | 0x1 => some (.orReg x y)
  | 0x2 => some (.andReg x y)
  | 0x3 => some (.xorReg x y)
  | 0x4 => some (.addReg x y)
  | 0x5 => some (.sub x y)
  | 0x6 => some (.shr x y)
  | 0x7 => some (.subn x y)
  | 0xE => some (.shl x y)
  | _ => none

/-- First nibble 0xE: selected by `kk` (format XF; R77, R79 (e)). -/
def decodeGroupE (op : Word) : Option Instr :=
  let x := fieldX op
  if fieldKk op = 0x9E#8 then some (.skp x)
  else if fieldKk op = 0xA1#8 then some (.sknp x)
  else none

/-- First nibble 0xF: selected by `kk` (format XF; R77, R79 (f)). -/
def decodeGroupF (op : Word) : Option Instr :=
  let x := fieldX op
  if fieldKk op = 0x07#8 then some (.ldVxDt x)
  else if fieldKk op = 0x0A#8 then some (.ldVxK x)
  else if fieldKk op = 0x15#8 then some (.ldDtVx x)
  else if fieldKk op = 0x18#8 then some (.ldStVx x)
  else if fieldKk op = 0x1E#8 then some (.addI x)
  else if fieldKk op = 0x29#8 then some (.ldF x)
  else if fieldKk op = 0x33#8 then some (.ldB x)
  else if fieldKk op = 0x55#8 then some (.stRegs x)
  else if fieldKk op = 0x65#8 then some (.ldRegs x)
  else none

/-- The instruction a word selects, `none` for the words of R79. PRESUMED (log 2), unsafe: the patterns of R78 are the
customary CHIP-8 assignment, which the spec takes from general knowledge (R76, D1). -/
def decodeWord (op : Word) : Option Instr :=
  match (fieldMajor op).toNat with
  | 0x0 => decodeGroup0 op
  | 0x1 => some (.jp (fieldNnn op))
  | 0x2 => some (.call (fieldNnn op))
  | 0x3 => some (.seImm (fieldX op) (fieldKk op))
  | 0x4 => some (.sneImm (fieldX op) (fieldKk op))
  | 0x5 => if fieldN op = 0 then some (.seReg (fieldX op) (fieldY op)) else none
  | 0x6 => some (.ldImm (fieldX op) (fieldKk op))
  | 0x7 => some (.addImm (fieldX op) (fieldKk op))
  | 0x8 => decodeGroup8 op
  | 0x9 => if fieldN op = 0 then some (.sneReg (fieldX op) (fieldY op)) else none
  | 0xA => some (.ldI (fieldNnn op))
  | 0xB => some (.jpV0 (fieldNnn op))
  | 0xC => some (.rnd (fieldX op) (fieldKk op))
  | 0xD => some (.drw (fieldX op) (fieldY op) (fieldN op))
  | 0xE => decodeGroupE op
  | 0xF => decodeGroupF op
  | _ => none

/-- Why a list of bytes gives no instruction. -/
inductive DecodeError where
  /-- Fewer than the two bytes of an instruction word (R70). -/
  | tooShort
  /-- The word `op` matches no row of R78 (R79). -/
  | unknownOpcode (op : Word)
  deriving DecidableEq, Repr

/-- The word formed by two bytes in memory order: the first byte is the high byte (20_memory.md R53). -/
def wordOfBytes (hi lo : Byte) : Word := hi ++ lo

/-- Decode the instruction at the head of a list of bytes, in memory order, and give the bytes after it. Total. -/
def decode : List Byte → Except DecodeError (Instr × List Byte)
  | hi :: lo :: rest =>
    match decodeWord (wordOfBytes hi lo) with
    | some i => .ok (i, rest)
    | none => .error (.unknownOpcode (wordOfBytes hi lo))
  | _ => .error .tooShort

/-! ### The encoder (R72, R78) -/

/-- Format A: a major nibble and `nnn`. -/
def formatA (major : BitVec 4) (nnn : Addr12) : Word := major ++ nnn

/-- Formats XK and XF: a major nibble, `x`, and a byte (`kk`, or the fixed minor byte). -/
def formatXK (major : BitVec 4) (x : Reg) (kk : Byte) : Word := major ++ (BitVec.ofFin x : BitVec 4) ++ kk

/-- Formats XY and XYN: a major nibble, `x`, `y`, and a low nibble (the fixed minor nibble, or `n`). -/
def formatXY (major : BitVec 4) (x y : Reg) (n : BitVec 4) : Word :=
  major ++ (BitVec.ofFin x : BitVec 4) ++ (BitVec.ofFin y : BitVec 4) ++ n

/-- The word of a well-formed instruction (R78). -/
def encode : Instr → Word
  | .cls => 0x00E0#16
  | .ret => 0x00EE#16
  | .jp nnn => formatA 0x1#4 nnn
  | .call nnn => formatA 0x2#4 nnn
  | .seImm x kk => formatXK 0x3#4 x kk
  | .sneImm x kk => formatXK 0x4#4 x kk
  | .seReg x y => formatXY 0x5#4 x y 0x0#4
  | .ldImm x kk => formatXK 0x6#4 x kk
  | .addImm x kk => formatXK 0x7#4 x kk
  | .ldReg x y => formatXY 0x8#4 x y 0x0#4
  | .orReg x y => formatXY 0x8#4 x y 0x1#4
  | .andReg x y => formatXY 0x8#4 x y 0x2#4
  | .xorReg x y => formatXY 0x8#4 x y 0x3#4
  | .addReg x y => formatXY 0x8#4 x y 0x4#4
  | .sub x y => formatXY 0x8#4 x y 0x5#4
  | .shr x y => formatXY 0x8#4 x y 0x6#4
  | .subn x y => formatXY 0x8#4 x y 0x7#4
  | .shl x y => formatXY 0x8#4 x y 0xE#4
  | .sneReg x y => formatXY 0x9#4 x y 0x0#4
  | .ldI nnn => formatA 0xA#4 nnn
  | .jpV0 nnn => formatA 0xB#4 nnn
  | .rnd x kk => formatXK 0xC#4 x kk
  | .drw x y n => formatXY 0xD#4 x y (BitVec.ofNat 4 n)
  | .skp x => formatXK 0xE#4 x 0x9E#8
  | .sknp x => formatXK 0xE#4 x 0xA1#8
  | .ldVxDt x => formatXK 0xF#4 x 0x07#8
  | .ldVxK x => formatXK 0xF#4 x 0x0A#8
  | .ldDtVx x => formatXK 0xF#4 x 0x15#8
  | .ldStVx x => formatXK 0xF#4 x 0x18#8
  | .addI x => formatXK 0xF#4 x 0x1E#8
  | .ldF x => formatXK 0xF#4 x 0x29#8
  | .ldB x => formatXK 0xF#4 x 0x33#8
  | .stRegs x => formatXK 0xF#4 x 0x55#8
  | .ldRegs x => formatXK 0xF#4 x 0x65#8

/-- The two bytes of a word as memory holds them, high byte first (R53). -/
def bytesOfWord (op : Word) : List Byte := [op.extractLsb' 8 8, op.extractLsb' 0 8]

/-- The bytes of an instruction in memory order. -/
def encodeBytes (i : Instr) : List Byte := bytesOfWord (encode i)

/-! ### The opcode table (R78) -/

/-- A row of R78's table: the id, the mask of its fixed bits, and their values. -/
structure OpcodeRow where
  mnemonic : String
  mask : Word
  value : Word
  deriving DecidableEq, Repr

/-- Rows 1 to 9 of R78's table. -/
def opcodeRowsPlain : List OpcodeRow :=
  [⟨"CLS", 0xFFFF#16, 0x00E0#16⟩,
   ⟨"RET", 0xFFFF#16, 0x00EE#16⟩,
   ⟨"JP", 0xF000#16, 0x1000#16⟩,
   ⟨"CALL", 0xF000#16, 0x2000#16⟩,
   ⟨"SE_IMM", 0xF000#16, 0x3000#16⟩,
   ⟨"SNE_IMM", 0xF000#16, 0x4000#16⟩,
   ⟨"SE_REG", 0xF00F#16, 0x5000#16⟩,
   ⟨"LD_IMM", 0xF000#16, 0x6000#16⟩,
   ⟨"ADD_IMM", 0xF000#16, 0x7000#16⟩]

/-- Rows 10 to 18, the 0x8 group. -/
def opcodeRowsArith : List OpcodeRow :=
  [⟨"LD_REG", 0xF00F#16, 0x8000#16⟩,
   ⟨"OR", 0xF00F#16, 0x8001#16⟩,
   ⟨"AND", 0xF00F#16, 0x8002#16⟩,
   ⟨"XOR", 0xF00F#16, 0x8003#16⟩,
   ⟨"ADD_REG", 0xF00F#16, 0x8004#16⟩,
   ⟨"SUB", 0xF00F#16, 0x8005#16⟩,
   ⟨"SHR", 0xF00F#16, 0x8006#16⟩,
   ⟨"SUBN", 0xF00F#16, 0x8007#16⟩,
   ⟨"SHL", 0xF00F#16, 0x800E#16⟩]

/-- Rows 19 to 23. -/
def opcodeRowsRest : List OpcodeRow :=
  [⟨"SNE_REG", 0xF00F#16, 0x9000#16⟩,
   ⟨"LD_I", 0xF000#16, 0xA000#16⟩,
   ⟨"JP_V0", 0xF000#16, 0xB000#16⟩,
   ⟨"RND", 0xF000#16, 0xC000#16⟩,
   ⟨"DRW", 0xF000#16, 0xD000#16⟩]

/-- Rows 24 to 34, the 0xE and 0xF groups. -/
def opcodeRowsMinor : List OpcodeRow :=
  [⟨"SKP", 0xF0FF#16, 0xE09E#16⟩,
   ⟨"SKNP", 0xF0FF#16, 0xE0A1#16⟩,
   ⟨"LD_VX_DT", 0xF0FF#16, 0xF007#16⟩,
   ⟨"LD_VX_K", 0xF0FF#16, 0xF00A#16⟩,
   ⟨"LD_DT_VX", 0xF0FF#16, 0xF015#16⟩,
   ⟨"LD_ST_VX", 0xF0FF#16, 0xF018#16⟩,
   ⟨"ADD_I", 0xF0FF#16, 0xF01E#16⟩,
   ⟨"LD_F", 0xF0FF#16, 0xF029#16⟩,
   ⟨"LD_B", 0xF0FF#16, 0xF033#16⟩,
   ⟨"ST_REGS", 0xF0FF#16, 0xF055#16⟩,
   ⟨"LD_REGS", 0xF0FF#16, 0xF065#16⟩]

/-- The 34 rows of R78, with its masks and matches. The decoder is written from R77 and does not read them. -/
def opcodeRows : List OpcodeRow := opcodeRowsPlain ++ opcodeRowsArith ++ opcodeRowsRest ++ opcodeRowsMinor

/-- The row's id an instruction belongs to (R78). -/
def Instr.mnemonic : Instr → String
  | .cls => "CLS"
  | .ret => "RET"
  | .jp _ => "JP"
  | .call _ => "CALL"
  | .seImm _ _ => "SE_IMM"
  | .sneImm _ _ => "SNE_IMM"
  | .seReg _ _ => "SE_REG"
  | .ldImm _ _ => "LD_IMM"
  | .addImm _ _ => "ADD_IMM"
  | .ldReg _ _ => "LD_REG"
  | .orReg _ _ => "OR"
  | .andReg _ _ => "AND"
  | .xorReg _ _ => "XOR"
  | .addReg _ _ => "ADD_REG"
  | .sub _ _ => "SUB"
  | .shr _ _ => "SHR"
  | .subn _ _ => "SUBN"
  | .shl _ _ => "SHL"
  | .sneReg _ _ => "SNE_REG"
  | .ldI _ => "LD_I"
  | .jpV0 _ => "JP_V0"
  | .rnd _ _ => "RND"
  | .drw _ _ _ => "DRW"
  | .skp _ => "SKP"
  | .sknp _ => "SKNP"
  | .ldVxDt _ => "LD_VX_DT"
  | .ldVxK _ => "LD_VX_K"
  | .ldDtVx _ => "LD_DT_VX"
  | .ldStVx _ => "LD_ST_VX"
  | .addI _ => "ADD_I"
  | .ldF _ => "LD_F"
  | .ldB _ => "LD_B"
  | .stRegs _ => "ST_REGS"
  | .ldRegs _ => "LD_REGS"

/-! ### The words of spec/opcode_table.json -/

/-- The bytes of an instruction whose bits are `w`, numbered as the opcode table numbers them, `nbits` of them given:
the bits above `nbits` are 0, an instruction is one word, and its high byte lies first. -/
def tableBytes (nbits w : Nat) : List Byte := bytesOfWord (BitVec.ofNat 16 (w % 2 ^ nbits))

/-- The instruction the decoder reads from the bytes of a table word. -/
def decodeTableWord (nbits w : Nat) : Option Instr :=
  match decode (tableBytes nbits w) with
  | .ok (i, _) => some i
  | .error _ => none

end Sys2Proof
end

