-- ==== Sys2Proof/Machine/State.lean ====
section
/-! DEFINITION. The state of the machine (10_state.md, the whole tuple at its head, R40) as plain data, its value
after reset (R39), and the reasons a step can stop (60_exceptions.md R170). -/

namespace Sys2Proof.Machine

/-- Memory: the bytes that differ from what an unlisted address reads as (`Memory.unlisted`), by rising address. -/
abbrev Memory := List Host.Cell

/-- The framebuffer, 32 rows of 64 pixels: `fb[r][c]`, true is set (R33). -/
abbrev Framebuffer := Vector (Vector Bool 64) 32

/-- The state (10_state.md). Every field but the last is the spec's. -/
structure State where
  /-- The general registers V[0] to V[15]; V[15] is VF (R20, R21). -/
  v : Vector Byte 16
  /-- The index register I, all 16 bits stored (R27). -/
  i : Word
  /-- The program counter (R23). -/
  pc : Word
  /-- SP, the number of live return addresses, 0 to 16 (R31). -/
  sp : Fin 17
  /-- The call stack; the entries below SP are live, oldest first (R31). -/
  stack : Vector Word 16
  /-- The delay timer DT (R28). -/
  dt : Byte
  /-- The sound timer ST (R28). -/
  st : Byte
  /-- RAM, 0x000 to 0xFFF (R30). -/
  mem : Memory
  /-- The framebuffer (R33). -/
  fb : Framebuffer
  /-- The key state, written by the host alone (R36). -/
  keys : Vector Bool 16
  /-- The redraw flag, set by DRW alone and cleared by the host (R29). -/
  redraw : Bool
  /-- The MODEL's own field (log 1): how many random bytes RND has consumed. It stands for the randomness source,
  which lies outside the CORE (R38); nothing reads it but the next RND. -/
  rndCount : Nat
  deriving DecidableEq, Repr

/-- The errors of the source and the faults of the spec (60_exceptions.md R170). All end the step with the state
unchanged (R171); R177 has a model treat them as faults. -/
inductive Fault where
  /-- Raised by dispatch: the fetched word matches no row of R78 (R172). Safe: the state the host sees is unchanged. -/
  | unknownOpcode (op : Word)
  /-- Raised by CALL when SP = 16 (R173). Safe. -/
  | stackOverflow
  /-- Raised by RET when SP = 0 (R174). Safe. -/
  | stackUnderflow
  /-- Raised by the host's `load` when the image is longer than 3584 bytes, never by a step (R175, R204). Safe. -/
  | romTooLarge
  /-- Raised by fetch, DRW, LD_B, ST_REGS and LD_REGS: an address above 0xFFF would be accessed; carries the lowest
  such address (R52, R178). Safe: the spec's own choice D6 stops where the described program may go on. -/
  | memoryOutOfRange (addr : Nat)
  /-- Raised by SKP and SKNP when V[x] > 15; carries V[x] (R166). Safe: the spec's own choice D7. -/
  | keyIndexOutOfRange (value : Byte)
  /-- Raised by DRW when the sprite's rectangle is not wholly inside the grid (R154). Safe: the spec's own choice D5. -/
  | drawOutOfRange
  deriving DecidableEq, Repr

/-- The reasons for which the model itself declines an instruction. -/
inductive Refusal where
  /-- Raised by an arm of `exec` that has no meaning yet; no arm is left so. Safe. -/
  | notModelled (mnemonic : String)
  deriving DecidableEq, Repr

/-- What a meaning and a step answer. -/
abbrev Result := Host.Outcome State Fault Refusal

/-- The state right after reset (R39): registers, I, timers, stack, screen, keys and redraw flag zero, PC at 0x200,
memory at its reset contents (the default FONT, zero elsewhere), nothing of it listed. The zeros of I, DT, ST, `fb`, `keys`,
`redraw` and the dead stack entries are the spec's decision D13 (log 4). `rndCount` is the model's own (log 1). -/
def State.reset : State where
  v := Vector.replicate 16 0#8
  i := 0x0000#16
  pc := 0x0200#16
  sp := 0
  stack := Vector.replicate 16 0x0000#16
  dt := 0x00#8
  st := 0x00#8
  mem := []
  fb := Vector.replicate 32 (Vector.replicate 64 false)
  keys := Vector.replicate 16 false
  redraw := false
  rndCount := 0

end Sys2Proof.Machine
end

