-- ==== Sys2Proof/Machine/Ops.lean ====
section
/-! DEFINITION. The named operations over the state: memory (20_memory.md), registers, PC, call stack (10_state.md),
timers (60_exceptions.md R181), and the raising of an error (00_scope.md R11, 60_exceptions.md R171, R191). -/

namespace Sys2Proof.Machine

/-! ### Memory -/

/-- What an unlisted address reads as: the reset contents, FONT at 0x000 to 0x04F and 0x00 elsewhere (R30, R39). No access
above 0xFFF comes here: every one faults first (log 13). -/
def Memory.unlisted (a : Nat) : Byte := defaultFont.getD a 0x00#8

/-- The byte at address `a` (R50): a read changes nothing. -/
def Memory.read : Memory → Nat → Byte
  | [], a => Memory.unlisted a
  | (b, w) :: rest, a => if a = b then w else Memory.read rest a

/-- Forget what is listed for address `a`. -/
def Memory.erase (m : Memory) (a : Nat) : Memory := m.filter (fun c => c.1 != a)

/-- Put a cell at its place by rising address. -/
def Memory.insertCell : Memory → Host.Cell → Memory
  | [], c => [c]
  | d :: rest, c => if c.1 < d.1 then c :: d :: rest else d :: Memory.insertCell rest c

/-- Write the byte `v` at address `a` and change nothing else (R51). The form stays canonical: a byte equal to what an
unlisted address reads as is not listed. -/
def Memory.write (m : Memory) (a : Nat) (v : Byte) : Memory :=
  if v = Memory.unlisted a then Memory.erase m a else Memory.insertCell (Memory.erase m a) (a, v)

/-- Write bytes at ascending addresses from `base` (R55, R204). -/
def Memory.writeBytes (m : Memory) (base : Nat) : List Byte → Memory
  | [] => m
  | b :: rest => Memory.writeBytes (Memory.write m base b) (base + 1) rest

/-- The addresses rise strictly, all lie above `low`'s predecessor, none lies above 0xFFF, and no byte equals what an
unlisted address reads as. -/
def Memory.wfFrom (low : Nat) : Memory → Bool
  | [] => true
  | (a, v) :: rest =>
    decide (low ≤ a) && decide (a < Config.memSize) && decide (v ≠ Memory.unlisted a) && Memory.wfFrom (a + 1) rest

/-- The canonical form of memory, and that no address outside RAM is listed (R30). -/
def Memory.wf (m : Memory) : Bool := Memory.wfFrom 0 m

/-- The fault of an access to the `len` bytes from `base`, if one of them lies above 0xFFF: the lowest such address is
`max(base, 0x1000)` (R52 to R54). Addresses are natural numbers, never wrapped or masked. DESIGN CHOICE of the spec, D6
(log 8), safe. -/
def accessFault (base len : Nat) : Option Fault :=
  if 1 ≤ len ∧ 0xFFF < base + (len - 1) then some (.memoryOutOfRange (max base 0x1000)) else none

/-! ### Raising an error -/

/-- Raise an error or fault: the step ends at once with it, before any write (R11, R171). There is no trap entry inside
the machine: no vector, no saved PC, no mode, no handler (R191); the state the host finds is the state at the start of
the step (`stepCall` in Machine/HostPort.lean; log 14), safe. -/
def raise (f : Fault) : Result := .fault f

/-- Test an access before anything is written: raise its fault, or go on (R52). -/
def guardAccess (base len : Nat) (go : Result) : Result :=
  match accessFault base len with
  | some f => raise f
  | none => go

/-! ### Registers -/

/-- VF = V[15] (R20, R21). -/
abbrev regVF : Reg := 15

/-- V0, read by jump-with-offset without being named (R22). -/
abbrev regV0 : Reg := 0

/-- Read V[x] (R9, R20). -/
def State.reg (s : State) (x : Reg) : Byte := s.v[x.val]

/-- Write V[x] (R9, R20): every register holds what was last written to it. -/
def State.setReg (s : State) (x : Reg) (b : Byte) : State := { s with v := s.v.set x.val b }

/-- Write the index register (R27). -/
def State.setI (s : State) (w : Word) : State := { s with i := w }

/-! ### Program counter -/

/-- PC <- target, an absolute address, unchecked (R24, R108). -/
def State.setPc (s : State) (w : Word) : State := { s with pc := w }

/-- PC <- PC + 2, the last action of every instruction that is no jump, skip or wait (R24). -/
def State.advance (s : State) : State := s.setPc (s.pc + 2#16)

/-- PC <- PC + (cond ? 4 : 2): a skip passes over exactly one instruction word, unexamined (R24, R108). -/
def State.skipIf (s : State) (cond : Bool) : State := s.setPc (s.pc + if cond then 4#16 else 2#16)

/-! ### Call stack -/

/-- Push a return address: StackOverflow when 16 are held (R32). -/
def State.push (s : State) (w : Word) : Except Fault State :=
  if h : s.sp.val < Config.stackDepth then
    .ok { s with stack := s.stack.set s.sp.val w h, sp := ⟨s.sp.val + 1, Nat.succ_lt_succ h⟩ }
  else .error .stackOverflow

/-- Pop the newest return address: StackUnderflow when none is held; the entry stays in the array, dead (R31, R32;
log 17). -/
def State.pop (s : State) : Except Fault (Word × State) :=
  if h : s.sp.val = 0 then .error .stackUnderflow
  else
    .ok (s.stack[s.sp.val - 1]'(by have := s.sp.isLt; omega),
      { s with sp := ⟨s.sp.val - 1, by have := s.sp.isLt; omega⟩ })

/-! ### Timers -/

/-- One decrement, never below zero (R181). -/
def countDown (t : Byte) : Byte := if t = 0#8 then 0#8 else t - 1#8

/-- The timer tick: each timer is decremented by its own test (R94, R181). -/
def State.tick (s : State) : State := { s with dt := countDown s.dt, st := countDown s.st }

/-! ### The step cycle's shared parts -/

/-- Fetch the word at PC and PC + 1, high byte first; PC is not changed and may be odd (R53, R59, R91;
C2, D14, log 15). -/
def fetch (s : State) : Except Fault Word :=
  match accessFault s.pc.toNat 2 with
  | some f => .error f
  | none => .ok (wordOfBytes (s.mem.read s.pc.toNat) (s.mem.read (s.pc.toNat + 1)))

/-- End the step: the tick follows an instruction that raised nothing, and no other (R90, R94, R176;
no tick on a failing step is D12, log 16). -/
def finishStep : Result → Result
  | .next s => .next s.tick
  | .fault f => .fault f
  | .refused r => .refused r

/-- `s` with the given bytes at PC, where the next step fetches; nothing where PC lies above 0xFFE and no word can be
fetched (log 19). -/
def State.placeAtPc (s : State) (bytes : List Byte) : State :=
  if s.pc.toNat ≤ Config.lastFetch then { s with mem := s.mem.writeBytes s.pc.toNat bytes } else s

end Sys2Proof.Machine
end

