-- ==== Sys2Proof/Machine/Flags.lean ====
section
/-! DEFINITION. The flag computations, VF being the only flag (10_state.md R26, 42_alu.md R127 to R132), the results they
go with, and the order of the two writes (R120). -/

namespace Sys2Proof.Machine

/-- A flag as VF holds it: 1 or 0 (R26). -/
def flagByte (c : Bool) : Byte := if c then 1#8 else 0#8

/-- Carry out of bit 7: the 9-bit sum exceeds 255 (R127). -/
def carryFlag (a b : Byte) : Bool := decide (255 < a.toNat + b.toNat)

/-- `a > b`, strictly, before the subtraction (R128, R129). -/
def greaterFlag (a b : Byte) : Bool := decide (b.toNat < a.toNat)

/-- The bit shifted out by shift-right, bit 0 (R130). -/
def lowBit (a : Byte) : Bool := a.getLsbD 0

/-- The bit shifted out by shift-left, bit 7 (R131). -/
def highBit (a : Byte) : Bool := a.getLsbD 7

/-- `VF <- flag; V[x] <- result`, in that order, the operands read before: with x = F the result stays (R120). DESIGN
CHOICE of the spec, D8 (log 6), unsafe for the forms that name VF. -/
def State.writeFlagged (s : State) (x : Reg) (flag : Bool) (result : Byte) : State :=
  (s.setReg regVF (flagByte flag)).setReg x result

end Sys2Proof.Machine
end

