-- ==== Sys2Proof/Machine/Operands.lean ====
section
/-! DEFINITION. Operand forms: addresses from I (20_memory.md R54), immediates (30_encoding.md R74), keys
(45_keypad_timers.md R163, R166), decimal digits and glyph addresses (43_index_memory.md R142, R144), and the transfer of
a block of registers (R145, R146). -/

namespace Sys2Proof.Machine

/-- The base of an access through I: its full 16-bit value as a natural number (R54). -/
def State.baseI (s : State) : Nat := s.i.toNat

/-- `zext_16(nnn)` (R74). -/
def addrOf (nnn : Addr12) : Word := nnn.setWidth 16

/-- `zext_16` of a byte (R8). -/
def wideOf (b : Byte) : Word := b.setWidth 16

/-- The address of glyph V[x]: the whole byte times 5 (R142). -/
def glyphAddr (b : Byte) : Word := wideOf b * 5#16

/-- The hundreds, tens and ones digits of a byte, each in a byte of its own (R144). -/
def bcdDigits (b : Byte) : List Byte :=
  [BitVec.ofNat 8 (b.toNat / 100), BitVec.ofNat 8 (b.toNat / 10 % 10), BitVec.ofNat 8 (b.toNat % 10)]

/-- The bytes V[0], V[1], ..., V[x] in that order (R145). -/
def State.regBlock (s : State) (x : Reg) : List Byte := s.v.toList.take (x.val + 1)

/-- Load the registers V[0] to V[count - 1] from ascending addresses (R146). -/
def loadBlock (m : Memory) (base : Nat) : Nat → Vector Byte 16 → Vector Byte 16
  | 0, v => v
  | k + 1, v =>
    if h : k < 16 then (loadBlock m base k v).set k (m.read (base + k)) h else loadBlock m base k v

/-- The key index V[x] names, or KeyIndexOutOfRange when it is above 15; it is not masked (R166). DESIGN CHOICE of the
spec, D7 (log 8), safe. -/
def keyIndex (b : Byte) : Except Fault (Fin 16) :=
  if h : b.toNat < 16 then .ok ⟨b.toNat, h⟩ else .error (.keyIndexOutOfRange b)

/-- Is key `k` pressed, as the host last wrote it (R36)? -/
def State.keyPressed (s : State) (k : Fin 16) : Bool := s.keys[k.val]

/-- The keys in the order of the scan, 0x0 to 0xF (R163). DESIGN CHOICE of the spec, D11 (log 11), unsafe. -/
def keyScan : List (Fin 16) := [0, 1, 2, 3, 4, 5, 6, 7, 8, 9, 10, 11, 12, 13, 14, 15]

/-- The least pressed key, if any is pressed (R163). -/
def State.firstKey (s : State) : Option (Fin 16) := keyScan.find? s.keyPressed

end Sys2Proof.Machine
end

