-- ==== Sys2Proof/Machine/Alu.lean ====
section
/-! DEFINITION. The 8-bit ALU: immediates, register-to-register forms, shifts, random (42_alu.md). Every operand is read
from the state at the start; the flag is written before the result (R120). -/

namespace Sys2Proof.Machine

/-- LD Vx, kk (R121). -/
def execLdImm (x : Reg) (kk : Byte) (s : State) : Result := .next (s.setReg x kk).advance

/-- ADD Vx, kk (R122): modulo 256, no flag. -/
def execAddImm (x : Reg) (kk : Byte) (s : State) : Result := .next (s.setReg x (s.reg x + kk)).advance

/-- LD Vx, Vy (R123). -/
def execLdReg (x y : Reg) (s : State) : Result := .next (s.setReg x (s.reg y)).advance

/-- OR Vx, Vy (R124): VF unaffected. -/
def execOrReg (x y : Reg) (s : State) : Result := .next (s.setReg x (s.reg x ||| s.reg y)).advance

/-- AND Vx, Vy (R125): VF unaffected. -/
def execAndReg (x y : Reg) (s : State) : Result := .next (s.setReg x (s.reg x &&& s.reg y)).advance

/-- XOR Vx, Vy (R126): VF unaffected. -/
def execXorReg (x y : Reg) (s : State) : Result := .next (s.setReg x (s.reg x ^^^ s.reg y)).advance

/-- ADD Vx, Vy (R127). -/
def execAddReg (x y : Reg) (s : State) : Result :=
  .next (s.writeFlagged x (carryFlag (s.reg x) (s.reg y)) (s.reg x + s.reg y)).advance

/-- SUB Vx, Vy (R128): VF = 1 exactly when Vx > Vy. -/
def execSub (x y : Reg) (s : State) : Result :=
  .next (s.writeFlagged x (greaterFlag (s.reg x) (s.reg y)) (s.reg x - s.reg y)).advance

/-- SUBN Vx, Vy (R129): Vy - Vx into Vx; VF = 1 exactly when Vy > Vx. -/
def execSubn (x y : Reg) (s : State) : Result :=
  .next (s.writeFlagged x (greaterFlag (s.reg y) (s.reg x)) (s.reg y - s.reg x)).advance

/-- SHR Vx (R130): by one, logical; V[y] is not read. -/
def execShr (x : Reg) (s : State) : Result :=
  .next (s.writeFlagged x (lowBit (s.reg x)) (s.reg x >>> 1)).advance

/-- SHL Vx (R131): by one; V[y] is not read. -/
def execShl (x : Reg) (s : State) : Result :=
  .next (s.writeFlagged x (highBit (s.reg x)) (s.reg x <<< 1)).advance

/-- RND Vx, kk (R133): the random byte is a free value, a fresh one at every execution (R38; log 1). -/
def execRnd (x : Reg) (kk : Byte) (s : State) : Result :=
  .next { (s.setReg x (Config.rnd s.rndCount &&& kk)).advance with rndCount := s.rndCount + 1 }

end Sys2Proof.Machine
end

