-- ==== Sys2Proof/Machine/Control.lean ====
section
/-! DEFINITION. Control transfer: jump, call, return, jump-with-offset and the compare skips (41_control_flow.md). -/

namespace Sys2Proof.Machine

/-- JP nnn (R100). -/
def execJp (nnn : Addr12) (s : State) : Result := .next (s.setPc (addrOf nnn))

/-- CALL nnn (R101): the address of the following instruction is pushed. -/
def execCall (nnn : Addr12) (s : State) : Result :=
  match s.push (s.pc + 2#16) with
  | .error f => raise f
  | .ok t => .next (t.setPc (addrOf nnn))

/-- RET (R102): nothing is added to the popped value. -/
def execRet (s : State) : Result :=
  match s.pop with
  | .error f => raise f
  | .ok (w, t) => .next (t.setPc w)

/-- JP V0, nnn (R103): a 16-bit sum, no reduction modulo 4096. -/
def execJpV0 (nnn : Addr12) (s : State) : Result := .next (s.setPc (addrOf nnn + wideOf (s.reg regV0)))

/-- SE Vx, kk (R104). -/
def execSeImm (x : Reg) (kk : Byte) (s : State) : Result := .next (s.skipIf (decide (s.reg x = kk)))

/-- SNE Vx, kk (R105). -/
def execSneImm (x : Reg) (kk : Byte) (s : State) : Result := .next (s.skipIf (decide (s.reg x ≠ kk)))

/-- SE Vx, Vy (R106). -/
def execSeReg (x y : Reg) (s : State) : Result := .next (s.skipIf (decide (s.reg x = s.reg y)))

/-- SNE Vx, Vy (R107). -/
def execSneReg (x y : Reg) (s : State) : Result := .next (s.skipIf (decide (s.reg x ≠ s.reg y)))

end Sys2Proof.Machine
end

