-- ==== Sys2Proof/Machine/Screen.lean ====
section
/-! DEFINITION. Operations over the framebuffer: pixels, the XOR sprite drawer and its collision detector, and the test of
the sprite's rectangle (44_display.md R150 to R154). -/

namespace Sys2Proof.Machine

/-- The pixel `fb[r][c]`; false outside the grid, where no instruction reaches (R33, R154; log 13). -/
def Framebuffer.pixel (fb : Framebuffer) (r c : Nat) : Bool :=
  if h : r < 32 ∧ c < 64 then (fb[r]'h.1)[c]'h.2 else false

/-- `fb[r][c] <- fb[r][c] ^ 1`; nothing outside the grid, where no instruction reaches (R151, R154). -/
def Framebuffer.invert (fb : Framebuffer) (r c : Nat) : Framebuffer :=
  if h : r < 32 ∧ c < 64 then fb.set r ((fb[r]'h.1).set c (!(fb[r]'h.1)[c]'h.2) h.2) h.1 else fb

/-- The clear framebuffer (R150). -/
def clearScreen : Framebuffer := Vector.replicate 32 (Vector.replicate 64 false)

/-- The sprite bit of column `c` in a row's byte: bit 7 is the leftmost. PRESUMED (log 5), unsafe (R151, D4). -/
def spriteBit (row : Byte) (c : Nat) : Bool := row.getLsbD (7 - c)

/-- One sprite bit onto one pixel: a 1 bit inverts it, and a set pixel it unsets is a collision (R151, R152). -/
def drawPixel (bit : Bool) (r c : Nat) (p : Framebuffer × Bool) : Framebuffer × Bool :=
  if bit then (p.1.invert r c, p.2 || p.1.pixel r c) else p

/-- The first `k` columns of one sprite row (R151's inner loop). -/
def drawRow (row : Byte) (r cx : Nat) : Nat → Framebuffer × Bool → Framebuffer × Bool
  | 0, p => p
  | k + 1, p => drawPixel (spriteBit row k) r (cx + k) (drawRow row r cx k p)

/-- The first `k` rows of a sprite (R151's outer loop); the flag is one OR over the whole draw (R152). -/
def drawRows (m : Memory) (base cx cy : Nat) : Nat → Framebuffer × Bool → Framebuffer × Bool
  | 0, p => p
  | k + 1, p => drawRow (m.read (base + k)) (cy + k) cx 8 (drawRows m base cx cy k p)

/-- Draw `n` rows onto `fb`, the flag cleared first (R151, R152). -/
def drawSprite (m : Memory) (base cx cy n : Nat) (fb : Framebuffer) : Framebuffer × Bool :=
  drawRows m base cx cy n (fb, false)

/-- The 8-column by `n`-row rectangle is not wholly inside the grid: DrawOutOfRange. Neither wrap nor clip (R154).
DESIGN CHOICE of the spec, D5 (log 8), safe. -/
def rectFault (cx cy n : Nat) : Option Fault :=
  if 1 ≤ n ∧ (63 < cx + 7 ∨ 31 < cy + (n - 1)) then some .drawOutOfRange else none

end Sys2Proof.Machine
end

