-- ==== Sys2Proof/Machine/Display.lean ====
section
/-! DEFINITION. The display instructions (44_display.md). -/

namespace Sys2Proof.Machine

/-- CLS (R150): the redraw flag is not set. -/
def execCls (s : State) : Result := .next { s with fb := clearScreen }.advance

/-- DRW Vx, Vy, n (R151): the test of the sprite's bytes, then the test of its rectangle, both before any write; the
coordinates are read before VF is written (R120, R153 (c); log 6). With n = 0 nothing is read or drawn and neither test
fires (R153 (a); DESIGN CHOICE of the spec, D21, log 10, unsafe). I is unchanged (log 9). -/
def execDrw (x y : Reg) (n : Nat) (s : State) : Result :=
  guardAccess s.baseI n
    (match rectFault (s.reg x).toNat (s.reg y).toNat n with
    | some f => raise f
    | none =>
      let drawn := drawSprite s.mem s.baseI (s.reg x).toNat (s.reg y).toNat n s.fb
      .next { s.setReg regVF (flagByte drawn.2) with fb := drawn.1, redraw := true }.advance)

end Sys2Proof.Machine
end

