-- ==== Sys2Proof/Machine/Index.lean ====
section
/-! DEFINITION. The index register and the memory instructions (43_index_memory.md). None of the three transfers changes
I (R143; DESIGN CHOICE of the spec, D10, log 9, unsafe). -/

namespace Sys2Proof.Machine

/-- LD I, nnn (R140). -/
def execLdI (nnn : Addr12) (s : State) : Result := .next (s.setI (addrOf nnn)).advance

/-- ADD I, Vx (R141): modulo 65536, never masked to 12 bits, no flag. DESIGN CHOICE of the spec, D9 (log 7), unsafe at the
wrap. -/
def execAddI (x : Reg) (s : State) : Result := .next (s.setI (s.i + wideOf (s.reg x))).advance

/-- LD F, Vx (R142). -/
def execLdF (x : Reg) (s : State) : Result := .next (s.setI (glyphAddr (s.reg x))).advance

/-- LD B, Vx (R144): the three decimal digits at I, I + 1, I + 2. -/
def execLdB (x : Reg) (s : State) : Result :=
  guardAccess s.baseI 3 (.next { s with mem := s.mem.writeBytes s.baseI (bcdDigits (s.reg x)) }.advance)

/-- LD [I], Vx (R145): V[0] to V[x] at I to I + x. -/
def execStRegs (x : Reg) (s : State) : Result :=
  guardAccess s.baseI (x.val + 1) (.next { s with mem := s.mem.writeBytes s.baseI (s.regBlock x) }.advance)

/-- LD Vx, [I] (R146): V[0] to V[x] from I to I + x. -/
def execLdRegs (x : Reg) (s : State) : Result :=
  guardAccess s.baseI (x.val + 1) (.next { s with v := loadBlock s.mem s.baseI (x.val + 1) s.v }.advance)

end Sys2Proof.Machine
end

