-- ==== Sys2Proof/Machine/Keypad.lean ====
section
/-! DEFINITION. The keypad and timer instructions (45_keypad_timers.md). The tick that follows each is the step's, not
theirs (R94). -/

namespace Sys2Proof.Machine

/-- SKP Vx (R160). -/
def execSkp (x : Reg) (s : State) : Result :=
  match keyIndex (s.reg x) with
  | .error f => raise f
  | .ok k => .next (s.skipIf (s.keyPressed k))

/-- SKNP Vx (R161). -/
def execSknp (x : Reg) (s : State) : Result :=
  match keyIndex (s.reg x) with
  | .error f => raise f
  | .ok k => .next (s.skipIf (!s.keyPressed k))

/-- LD Vx, DT (R162): DT before this step's tick. -/
def execLdVxDt (x : Reg) (s : State) : Result := .next (s.setReg x s.dt).advance

/-- LD Vx, K (R163): the least pressed key, or nothing at all and PC stays. -/
def execLdVxK (x : Reg) (s : State) : Result :=
  match s.firstKey with
  | some k => .next (s.setReg x (BitVec.ofNat 8 k.val)).advance
  | none => .next s

/-- LD DT, Vx (R164). -/
def execLdDtVx (x : Reg) (s : State) : Result := .next { s with dt := s.reg x }.advance

/-- LD ST, Vx (R165). -/
def execLdStVx (x : Reg) (s : State) : Result := .next { s with st := s.reg x }.advance

end Sys2Proof.Machine
end

