-- ==== Sys2Proof/Machine/Step.lean ====
section
/-! DEFINITION. The one transition of the machine: fetch, decode, execute, tick (40_step_cycle.md R90 to R94). -/

namespace Sys2Proof.Machine

/-- One `step()` (R90). A step that raises ends with the error, and no tick happens (R176). -/
def step (s : State) : Host.Outcome State Fault Refusal :=
  match fetch s with
  | .error f => raise f
  | .ok op =>
    match decodeWord op with
    | none => raise (.unknownOpcode op)
    | some i => finishStep (exec i s)

/-- `s` with the instruction of a table word stored where step fetches its next instruction. -/
def State.withFetchWord (s : State) (nbits w : Nat) : State := s.placeAtPc (tableBytes nbits w)

end Sys2Proof.Machine
end

