-- ==== Sys2Proof/Machine/HostPort.lean ====
section
/-! DEFINITION. The CORE's boundary (60_exceptions.md R186 to R192, 70_reset_and_hazards.md R200 to R206): what a call
of `step()` returns to the host, the host's actions between steps, and what the host reads. -/

namespace Sys2Proof.Machine

/-- The result of a step or of a host action as the host receives it: Ok (`next ()`) or one error with its information
(10_state.md R37). It is an output, stored nowhere. -/
abbrev StepResult := Host.Outcome Unit Fault Refusal

/-- Give the host the state and the result: an error leaves the state as it was, bit for bit (R171, R191). -/
def settleResult (s : State) : Result → State × StepResult
  | .next t => (t, .next ())
  | .fault f => (s, .fault f)
  | .refused r => (s, .refused r)

/-- One call of `step()`, the state after it included; the CORE accepts a further call after an error (R192). -/
def stepCall (s : State) : State × StepResult := settleResult s (step s)

/-- The numeric code of an error at a result port; Ok is 0 (R170, D17). -/
def Fault.code : Fault → Nat
  | .unknownOpcode _ => 1
  | .stackOverflow => 2
  | .stackUnderflow => 3
  | .romTooLarge => 4
  | .memoryOutOfRange _ => 5
  | .keyIndexOutOfRange _ => 6
  | .drawOutOfRange => 7

/-- The code at a result port: 0 for Ok (R170); a refusal of the model is no result of the CORE. -/
def resultCode : StepResult → Option Nat
  | .next _ => some 0
  | .fault f => some f.code
  | .refused _ => none

/-- `load(bytes)` (R204): the length is tested first; only `mem[0x200 .. 0x200 + L - 1]` changes. DESIGN CHOICE of the spec,
D16 (log 12). -/
def loadImage (bytes : List Byte) (s : State) : Result :=
  if Config.maxImage < bytes.length then raise .romTooLarge
  else .next { s with mem := s.mem.writeBytes Config.progStart bytes }

/-- The host's write of the key state (R187); unwritten, it persists (R36; D24, log 18). -/
def State.writeKeys (s : State) (keys : Vector Bool 16) : State := { s with keys := keys }

/-- The host's clear of the redraw flag (R188). -/
def State.clearRedraw (s : State) : State := { s with redraw := false }

/-- The state after reset with the parameter FONT (R200, R39; 00_scope.md R6 (a)): `mem[a] = FONT[a]` for the 80 bytes
from 0x000. -/
def State.resetWith (font : Vector Byte 80) : State :=
  { State.reset with mem := State.reset.mem.writeBytes 0 font.toList }

/-- What the host may do between two steps (R186); a read of `fb`, `redraw` or ST changes nothing and is no action. -/
inductive HostAction where
  /-- Reset with a FONT (R200). -/
  | reset (font : Vector Byte 80)
  /-- Load a program image (R204, R205). -/
  | load (bytes : List Byte)
  /-- Write the key state (R187). -/
  | writeKeys (keys : Vector Bool 16)
  /-- Clear the redraw flag (R188). -/
  | clearRedraw
  deriving DecidableEq, Repr

/-- A host action on the state. A reset is a total assignment of the CORE's state (R200); the randomness source lies
outside the CORE (R38) and is not reset with it, so the model's `rndCount` goes on (log 1). -/
def hostAct (a : HostAction) (s : State) : Result :=
  match a with
  | .reset font => .next { State.resetWith font with rndCount := s.rndCount }
  | .load bytes => loadImage bytes s
  | .writeKeys keys => .next (s.writeKeys keys)
  | .clearRedraw => .next s.clearRedraw

/-- One host action as the host sees it, the state after it included. -/
def hostCall (a : HostAction) (s : State) : State × StepResult := settleResult s (hostAct a s)

/-- The sound output: audio plays exactly while ST > 0 (R34, R183). -/
def State.soundOn (s : State) : Bool := decide (0#8 < s.st)

end Sys2Proof.Machine
end

