-- ==== Sys2Proof/Safety.lean ====
section
/-! DEFINITION. What counts as a safe run, the invariant of every reachable state (10_state.md R41), and the tables of the
spec about the whole machine, in the terms the statements use. None of the meanings reads these definitions. -/

namespace Sys2Proof.Machine

/-! ### Runs -/

/-- A state whose next step raises nothing. -/
def State.Runs (s : State) : Prop := ∃ t, step s = .next t

/-- A run of `n` steps from `s` leads to `t` and no step of it raised (60_exceptions.md R177: the premise a claim about a
program takes). The bound `n` is the number of calls the driver makes: to stop calling is the only cancellation (R97). -/
def RunsTo (n : Nat) (s t : State) : Prop := Sys2Proof.core.run n s = .next t

/-- The 16-bit number the two bytes at PC form, the first byte high (R53). -/
def State.wordAtPc (s : State) : Nat := 256 * (s.mem.read s.pc.toNat).toNat + (s.mem.read (s.pc.toNat + 1)).toNat

/-- The next step of `s` fetches a word that selects the instruction `i`. -/
def State.Selects (s : State) (i : Instr) : Prop :=
  s.pc.toNat ≤ 0xFFE ∧ decodeWord (BitVec.ofNat 16 s.wordAtPc) = some i

/-- The source's implicit engine state `AwaitingKey` (10_state.md R35): the word at PC is a wait-for-key and no key is
pressed. It is no stored bit and not final (R97). -/
def State.AwaitingKey (s : State) : Prop := (∃ x, s.Selects (.ldVxK x)) ∧ ∀ k : Fin 16, s.keys[k.val] = false

/-- PC points at a jump to its own address. THE MACHINE HAS NO FINAL STATE (40_step_cycle.md R97: no halt instruction, no
exit, no architected end of a program), so a model must define the end of a run itself: DESIGN CHOICE (log 23), it is
this condition, the instance R97 names. It is a condition on ordinary states, stored nowhere; `step` does not test it and
goes on from it. -/
def State.AtRunEnd (s : State) : Prop := ∃ nnn, nnn.toNat = s.pc.toNat ∧ s.Selects (.jp nnn)

/-- A program's run from `s` has ended after `n` steps, in `t`: no step raised, and `t` is at the end of a run as the model
defines it (R97; log 23). A run that raises has not ended, it has failed (R177). -/
def RunEndsAt (n : Nat) (s t : State) : Prop := RunsTo n s t ∧ t.AtRunEnd

/-- No instruction among the next `n` successful steps from `s` is one of `bad`. -/
def RunAvoids (bad : Instr → Prop) : Nat → State → Prop
  | 0, _ => True
  | n + 1, s => (∀ i, s.Selects i → ¬ bad i) ∧ ∀ t, step s = .next t → RunAvoids bad n t

/-! ### The invariant -/

/-- The invariant of every reachable state: memory is in canonical form and lists no address outside RAM, PC is at most
0x10FE, every live stack entry is at most 0x1000 (R25, R30, R41). SP <= 16, I <= 0xFFFF and the widths of the registers
are in their types. -/
def State.Inv (s : State) : Prop :=
  s.mem.wf = true ∧ s.pc.toNat ≤ 0x10FE ∧ ∀ k : Fin 16, k.val < s.sp.val → s.stack[k.val].toNat ≤ 0x1000

/-- Two states that differ at most in dead stack entries, those at index SP and above (R31). -/
def SameButDeadStack (s t : State) : Prop :=
  t = { s with stack := t.stack } ∧ ∀ k : Fin 16, k.val < s.sp.val → t.stack[k.val] = s.stack[k.val]

/-! ### Tables of the spec -/

/-- The error an instruction raises in a state, by the conditions of 60_exceptions.md R170 and, for DRW, in the order of
R179; `none` for the 26 instructions R170 does not name. -/
def raisedBy (i : Instr) (s : State) : Option Fault :=
  match i with
  | .call _ => if s.sp.val = 16 then some .stackOverflow else none
  | .ret => if s.sp.val = 0 then some .stackUnderflow else none
  | .skp x => if (s.reg x).toNat > 15 then some (.keyIndexOutOfRange (s.reg x)) else none
  | .sknp x => if (s.reg x).toNat > 15 then some (.keyIndexOutOfRange (s.reg x)) else none
  | .ldB _ => if s.i.toNat + 2 > 0xFFF then some (.memoryOutOfRange (max s.i.toNat 0x1000)) else none
  | .stRegs x => if s.i.toNat + x.val > 0xFFF then some (.memoryOutOfRange (max s.i.toNat 0x1000)) else none
  | .ldRegs x => if s.i.toNat + x.val > 0xFFF then some (.memoryOutOfRange (max s.i.toNat 0x1000)) else none
  | .drw x y n =>
    if n ≥ 1 ∧ s.i.toNat + n - 1 > 0xFFF then some (.memoryOutOfRange (max s.i.toNat 0x1000))
    else if n ≥ 1 ∧ ((s.reg x).toNat > 56 ∨ (s.reg y).toNat + n > 32) then some .drawOutOfRange
    else none
  | .cls => none
  | .jp _ => none
  | .seImm _ _ => none
  | .sneImm _ _ => none
  | .seReg _ _ => none
  | .ldImm _ _ => none
  | .addImm _ _ => none
  | .ldReg _ _ => none
  | .orReg _ _ => none
  | .andReg _ _ => none
  | .xorReg _ _ => none
  | .addReg _ _ => none
  | .sub _ _ => none
  | .shr _ _ => none
  | .subn _ _ => none
  | .shl _ _ => none
  | .sneReg _ _ => none
  | .ldI _ => none
  | .jpV0 _ => none
  | .rnd _ _ => none
  | .ldVxDt _ => none
  | .ldVxK _ => none
  | .ldDtVx _ => none
  | .ldStVx _ => none
  | .addI _ => none
  | .ldF _ => none

/-- The registers an instruction writes: its destination, VF for the five flag-writing ALU instructions and draw, V0 to Vx
for register-load (10_state.md R22, R26). -/
def WritesReg (i : Instr) (r : Reg) : Prop :=
  match i with
  | .ldImm x _ => r = x
  | .addImm x _ => r = x
  | .ldReg x _ => r = x
  | .orReg x _ => r = x
  | .andReg x _ => r = x
  | .xorReg x _ => r = x
  | .addReg x _ => r = x ∨ r = 15
  | .sub x _ => r = x ∨ r = 15
  | .shr x _ => r = x ∨ r = 15
  | .subn x _ => r = x ∨ r = 15
  | .shl x _ => r = x ∨ r = 15
  | .rnd x _ => r = x
  | .drw _ _ _ => r = 15
  | .ldVxDt x => r = x
  | .ldVxK x => r = x
  | .ldRegs x => r.val ≤ x.val
  | .cls => False
  | .ret => False
  | .jp _ => False
  | .call _ => False
  | .seImm _ _ => False
  | .sneImm _ _ => False
  | .seReg _ _ => False
  | .sneReg _ _ => False
  | .ldI _ => False
  | .jpV0 _ => False
  | .skp _ => False
  | .sknp _ => False
  | .ldDtVx _ => False
  | .ldStVx _ => False
  | .addI _ => False
  | .ldF _ => False
  | .ldB _ => False
  | .stRegs _ => False

/-- The addresses an instruction stores to: I to I + 2 for store-BCD, I to I + x for register-dump, none for the others
(R30, R144, R145). -/
def StoresTo (i : Instr) (s : State) (a : Nat) : Prop :=
  match i with
  | .ldB _ => s.baseI ≤ a ∧ a < s.baseI + 3
  | .stRegs x => s.baseI ≤ a ∧ a < s.baseI + (x.val + 1)
  | .cls => False
  | .ret => False
  | .jp _ => False
  | .call _ => False
  | .seImm _ _ => False
  | .sneImm _ _ => False
  | .seReg _ _ => False
  | .ldImm _ _ => False
  | .addImm _ _ => False
  | .ldReg _ _ => False
  | .orReg _ _ => False
  | .andReg _ _ => False
  | .xorReg _ _ => False
  | .addReg _ _ => False
  | .sub _ _ => False
  | .shr _ _ => False
  | .subn _ _ => False
  | .shl _ _ => False
  | .sneReg _ _ => False
  | .ldI _ => False
  | .jpV0 _ => False
  | .rnd _ _ => False
  | .drw _ _ _ => False
  | .skp _ => False
  | .sknp _ => False
  | .ldVxDt _ => False
  | .ldVxK _ => False
  | .ldDtVx _ => False
  | .ldStVx _ => False
  | .addI _ => False
  | .ldF _ => False
  | .ldRegs _ => False

/-- The value 10_state.md R24 lists for PC after an instruction that does not raise, as a natural number. -/
def PcAfter (i : Instr) (s : State) (p : Nat) : Prop :=
  match i with
  | .jp nnn => p = nnn.toNat
  | .call nnn => p = nnn.toNat
  | .jpV0 nnn => p = nnn.toNat + (s.reg 0).toNat
  | .ret => ∃ k : Fin 16, k.val + 1 = s.sp.val ∧ p = s.stack[k.val].toNat
  | .seImm x kk => p = s.pc.toNat + if s.reg x = kk then 4 else 2
  | .sneImm x kk => p = s.pc.toNat + if s.reg x = kk then 2 else 4
  | .seReg x y => p = s.pc.toNat + if s.reg x = s.reg y then 4 else 2
  | .sneReg x y => p = s.pc.toNat + if s.reg x = s.reg y then 2 else 4
  | .skp x => ∃ k : Fin 16, (s.reg x).toNat = k.val ∧ p = s.pc.toNat + if s.keys[k.val] then 4 else 2
  | .sknp x => ∃ k : Fin 16, (s.reg x).toNat = k.val ∧ p = s.pc.toNat + if s.keys[k.val] then 2 else 4
  | .ldVxK _ => p = s.pc.toNat + if ∃ k : Fin 16, s.keys[k.val] = true then 2 else 0
  | .cls => p = s.pc.toNat + 2
  | .ldImm _ _ => p = s.pc.toNat + 2
  | .addImm _ _ => p = s.pc.toNat + 2
  | .ldReg _ _ => p = s.pc.toNat + 2
  | .orReg _ _ => p = s.pc.toNat + 2
  | .andReg _ _ => p = s.pc.toNat + 2
  | .xorReg _ _ => p = s.pc.toNat + 2
  | .addReg _ _ => p = s.pc.toNat + 2
  | .sub _ _ => p = s.pc.toNat + 2
  | .shr _ _ => p = s.pc.toNat + 2
  | .subn _ _ => p = s.pc.toNat + 2
  | .shl _ _ => p = s.pc.toNat + 2
  | .ldI _ => p = s.pc.toNat + 2
  | .rnd _ _ => p = s.pc.toNat + 2
  | .drw _ _ _ => p = s.pc.toNat + 2
  | .ldVxDt _ => p = s.pc.toNat + 2
  | .ldDtVx _ => p = s.pc.toNat + 2
  | .ldStVx _ => p = s.pc.toNat + 2
  | .addI _ => p = s.pc.toNat + 2
  | .ldF _ => p = s.pc.toNat + 2
  | .ldB _ => p = s.pc.toNat + 2
  | .stRegs _ => p = s.pc.toNat + 2
  | .ldRegs _ => p = s.pc.toNat + 2

/-- The sprite of `n` rows at `base`, drawn with its top left at row `cy` and column `cx`, has a 1 bit at row `r` and
column `c` of the grid: bit 7 of a row's byte is the leftmost (44_display.md R151, R152; log 5). -/
def SpriteCovers (m : Memory) (base cx cy n r c : Nat) : Prop :=
  cy ≤ r ∧ r < cy + n ∧ cx ≤ c ∧ c < cx + 8 ∧ (m.read (base + (r - cy))).getLsbD (7 - (c - cx)) = true

end Sys2Proof.Machine
end

