-- ==== Sys2Proof/Certificates/Slice0/Obligations.lean ====
section
/-! DEFINITION. The statements about the machine. Each docstring names the rule or the section of the spec it formalises.
"Frame" clauses are record equations: `t = { s with f := t.f }` says that every other field of the state, memory
included, is unchanged. -/

open Sys2Proof Sys2Proof.Machine

/-! ### Encoding -/

/-- Words written out from the encodings of 30_encoding.md section 2 (the vectors DE1 to DE19 and source words S3) decode to
the instructions they stand for, and words of its section 3 to none. Patterns: log 2. -/
def Obligations.SpecWordsDecode : Prop :=
  decodeWord 0x6AFF#16 = some (.ldImm 10 0xFF#8) ∧ decodeWord 0x6BCA#16 = some (.ldImm 11 0xCA#8) ∧
  decodeWord 0x00E0#16 = some .cls ∧ decodeWord 0x00EE#16 = some .ret ∧
  decodeWord 0x213F#16 = some (.call 0x13F#12) ∧ decodeWord 0x5120#16 = some (.seReg 1 2) ∧
  decodeWord 0x8127#16 = some (.subn 1 2) ∧ decodeWord 0x812E#16 = some (.shl 1 2) ∧
  decodeWord 0xD7A5#16 = some (.drw 7 10 5) ∧ decodeWord 0xE19E#16 = some (.skp 1) ∧
  decodeWord 0xFE65#16 = some (.ldRegs 14) ∧ decodeWord 0xF333#16 = some (.ldB 3) ∧
  decodeWord 0x0000#16 = none ∧ decodeWord 0x0123#16 = none ∧ decodeWord 0x5121#16 = none ∧
  decodeWord 0x8128#16 = none ∧ decodeWord 0x9121#16 = none ∧ decodeWord 0xE19F#16 = none ∧
  decodeWord 0xF175#16 = none

/-- Every well-formed instruction, with every operand at every value, is what its own word decodes to, and the decoder over
bytes reads exactly its two bytes and leaves the rest (30_encoding.md sections 1 and 2). -/
def Obligations.DecodeOfEncodeIsTheInstruction : Prop :=
  ∀ i : Instr, i.wellFormed = true →
    decodeWord (encode i) = some i ∧ ∀ rest : List Byte, decode (encodeBytes i ++ rest) = .ok (i, rest)

/-- Every word that decodes is the word of the instruction it decodes to, and that instruction is well formed: no bit of a
word is lost, the ignored field y of the shifts included (30_encoding.md sections 1 and 2). -/
def Obligations.EncodeOfDecodeIsTheWord : Prop :=
  ∀ (op : Word) (i : Instr), decodeWord op = some i → i.wellFormed = true ∧ encode i = op

/-- The decoder agrees with the mask and match table: a word selects an instruction exactly when a row of the table matches
it, the row is the instruction's own, and no second row matches it (30_encoding.md section 2). Patterns: log 2. -/
def Obligations.DecodeAgreesWithMaskMatchTable : Prop :=
  ∀ op : Word,
    (∀ i, decodeWord op = some i → ∃ r ∈ opcodeRows, r.mnemonic = i.mnemonic ∧ op &&& r.mask = r.value) ∧
    (∀ r ∈ opcodeRows, op &&& r.mask = r.value → ∃ i, decodeWord op = some i ∧ i.mnemonic = r.mnemonic) ∧
    (∀ r ∈ opcodeRows, ∀ q ∈ opcodeRows, op &&& r.mask = r.value → op &&& q.mask = q.value → r = q)

/-- The words that select no instruction are exactly the sets (a) to (f) of 30_encoding.md section 3; set (g) lies in (a).
Patterns: log 2. -/
def Obligations.UnmatchedWordsAreTheListedSets : Prop :=
  ∀ op : Word, decodeWord op = none ↔
    (op.toNat / 4096 = 0x0 ∧ op.toNat ≠ 0x00E0 ∧ op.toNat ≠ 0x00EE) ∨
    (op.toNat / 4096 = 0x5 ∧ op.toNat % 16 ≠ 0) ∨
    (op.toNat / 4096 = 0x8 ∧ op.toNat % 16 ∈ [0x8, 0x9, 0xA, 0xB, 0xC, 0xD, 0xF]) ∨
    (op.toNat / 4096 = 0x9 ∧ op.toNat % 16 ≠ 0) ∨
    (op.toNat / 4096 = 0xE ∧ op.toNat % 256 ∉ [0x9E, 0xA1]) ∨
    (op.toNat / 4096 = 0xF ∧ op.toNat % 256 ∉ [0x07, 0x0A, 0x15, 0x18, 0x1E, 0x29, 0x33, 0x55, 0x65])

/-! ### The step cycle -/

/-- A step runs the decoded instruction: when the two bytes at PC, high byte first, form a word that decodes to `i`, step
is exec of `i`, followed on success by one decrement of each timer that is above zero (40_step_cycle.md). -/
def Obligations.StepRunsTheDecodedInstruction : Prop :=
  ∀ (s : State) (op : Word) (i : Instr), s.pc.toNat ≤ 0xFFE →
    op.toNat = 256 * (s.mem.read s.pc.toNat).toNat + (s.mem.read (s.pc.toNat + 1)).toNat →
    decodeWord op = some i →
    step s = match exec i s with
      | .next t => .next { t with dt := BitVec.ofNat 8 (t.dt.toNat - 1), st := BitVec.ofNat 8 (t.st.toNat - 1) }
      | .fault f => .fault f
      | .refused r => .refused r

/-- A step that begins with PC above 0xFFE raises MemoryOutOfRange with the lowest address above 0xFFF among PC and PC + 1.
The fault is the spec's own decision D6, not the source's (log 8). -/
def Obligations.FetchAboveTheTopRaises : Prop :=
  ∀ s : State, 0xFFE < s.pc.toNat →
    step s = .fault (.memoryOutOfRange (max s.pc.toNat 0x1000)) ∧ (stepCall s).1 = s

/-- A word at PC that matches no pattern of the table raises UnknownOpcode with the whole word as its information, and the
state, PC included, is what it was (60_exceptions.md section 1; patterns: log 2). -/
def Obligations.UnmatchedWordRaisesUnknownOpcode : Prop :=
  ∀ (s : State) (op : Word), s.pc.toNat ≤ 0xFFE → op.toNat = s.wordAtPc →
    (∀ r ∈ opcodeRows, op &&& r.mask ≠ r.value) →
    step s = .fault (.unknownOpcode op) ∧ stepCall s = (s, .fault (.unknownOpcode op))

/-- The tick: a successful step is the execution of the selected instruction and then, as its last action, one decrement of
each timer by its own test, never below zero; a failing step has none (60_exceptions.md section 6; no tick on a failing
step is the spec's decision D12, log 16). -/
def Obligations.TickEndsEverySuccessfulStep : Prop :=
  (∀ s t : State, step s = .next t →
    ∃ (i : Instr) (u : State), s.Selects i ∧ exec i s = .next u ∧ t.dt.toNat = u.dt.toNat - 1 ∧
      t.st.toNat = u.st.toNat - 1 ∧ t = { u with dt := t.dt, st := t.st }) ∧
  (∀ (s : State) (f : Fault), step s = .fault f → (stepCall s).1.dt = s.dt ∧ (stepCall s).1.st = s.st)

/-- R182. If no instruction among the next n successful steps writes a timer, then after those n steps the timer holds
max(0, initial - n); each of the two timers on its own. -/
def Obligations.TimersCountStepsDownToZero : Prop :=
  ∀ (n : Nat) (s t : State), RunsTo n s t →
    (RunAvoids (fun i => ∃ x, i = .ldDtVx x) n s → t.dt.toNat = s.dt.toNat - n) ∧
    (RunAvoids (fun i => ∃ x, i = .ldStVx x) n s → t.st.toNat = s.st.toNat - n)

/-- Which instruction raises which error and when, in the order of the tests, and that every other execution completes
(60_exceptions.md sections 1 and 3; the spec's decisions D5, D6, D7, D18, log 8). -/
def Obligations.RaisesExactlyUnderTheListedConditions : Prop :=
  ∀ (i : Instr) (s : State),
    match raisedBy i s with
    | some f => exec i s = .fault f
    | none => ∃ t, exec i s = .next t

/-! ### Frames of the whole machine -/

/-- An instruction that completes leaves every register unchanged that is not its destination, VF of a flag-writing
instruction, or one of V0 to Vx of register-load (10_state.md sections 1 and 3). -/
def Obligations.OtherRegistersAreUnchanged : Prop :=
  ∀ (i : Instr) (s t : State) (r : Reg), exec i s = .next t → ¬ WritesReg i r → t.reg r = s.reg r

/-- R24. PC after an instruction that completes takes exactly the value the list of R24 gives it (a natural-number
equation: PC does not wrap), and a step that raises leaves it unchanged. -/
def Obligations.ProgramCounterChangesAsListed : Prop :=
  (∀ (i : Instr) (s t : State), s.pc.toNat ≤ 0xFFE → exec i s = .next t → PcAfter i s t.pc.toNat) ∧
  (∀ (s : State) (f : Fault), (stepCall s).2 = .fault f → (stepCall s).1.pc = s.pc)

/-- Every byte of memory is unchanged but the bytes store-BCD and register-dump store to, I to I + 2 and I to I + x
(10_state.md section 6, 43_index_memory.md). -/
def Obligations.OtherMemoryIsUnchanged : Prop :=
  ∀ (i : Instr) (s t : State) (a : Nat), exec i s = .next t → ¬ StoresTo i s a → t.mem.read a = s.mem.read a

/-- I, the timers, the stack, the screen, the redraw flag and the keys are written by the named instructions and no other;
the keys by none (10_state.md sections 4 and 5). That draw, store-BCD, register-dump and register-load keep I is the spec's
decision D10, log 9; that the return leaves every stack entry in place is its decision D23, log 17; the random counter is
the model's own, log 1. -/
def Obligations.SpecialStateIsWrittenOnlyByTheNamedInstructions : Prop :=
  ∀ (i : Instr) (s t : State), exec i s = .next t →
    ((∀ nnn, i ≠ .ldI nnn) → (∀ x, i ≠ .addI x) → (∀ x, i ≠ .ldF x) → t.i = s.i) ∧
    ((∀ x, i ≠ .ldDtVx x) → t.dt = s.dt) ∧
    ((∀ x, i ≠ .ldStVx x) → t.st = s.st) ∧
    ((∀ nnn, i ≠ .call nnn) → i ≠ .ret → t.sp = s.sp) ∧
    ((∀ nnn, i ≠ .call nnn) → t.stack = s.stack) ∧
    (i ≠ .cls → (∀ x y n, i ≠ .drw x y n) → t.fb = s.fb) ∧
    ((∀ x y n, i ≠ .drw x y n) → t.redraw = s.redraw) ∧
    (s.redraw = true → t.redraw = true) ∧
    t.keys = s.keys ∧
    ((∀ x kk, i ≠ .rnd x kk) → t.rndCount = s.rndCount)

/-! ### Control transfer -/

/-- R100, R103. Jump sets PC to nnn, and jump-with-offset to nnn + V0 with no wrap and no reduction; nothing else changes,
and neither can fail. -/
def Obligations.JumpsSetThePc : Prop :=
  ∀ (nnn : Addr12) (s : State),
    (∃ t, exec (.jp nnn) s = .next t ∧ t.pc.toNat = nnn.toNat ∧ t = { s with pc := t.pc }) ∧
    (∃ t, exec (.jpV0 nnn) s = .next t ∧ t.pc.toNat = nnn.toNat + (s.reg 0).toNat ∧ t = { s with pc := t.pc })

/-- R101. Call with fewer than 16 entries pushes PC + 2 and jumps; with 16 it raises StackOverflow. -/
def Obligations.CallPushesTheReturnAddress : Prop :=
  ∀ (nnn : Addr12) (s : State),
    (∀ h : s.sp.val < 16, ∃ t, exec (.call nnn) s = .next t ∧ t.pc.toNat = nnn.toNat ∧ t.sp.val = s.sp.val + 1 ∧
      t.stack[s.sp.val] = s.pc + 2#16 ∧ (∀ k : Fin 16, k.val ≠ s.sp.val → t.stack[k.val] = s.stack[k.val]) ∧
      t = { s with pc := t.pc, sp := t.sp, stack := t.stack }) ∧
    (s.sp.val = 16 → exec (.call nnn) s = .fault .stackOverflow)

/-- Return with an entry on the stack sets PC to the newest entry, and nothing else but SP changes; with none it raises
StackUnderflow (41_control_flow.md, RET). That every stack entry stays in place, the popped one included, is the
spec's decision D23 (log 17), a choice: the source is silent on popped entries. -/
def Obligations.ReturnPopsTheReturnAddress : Prop :=
  ∀ s : State,
    (∀ k : Fin 16, s.sp.val = k.val + 1 → ∃ t, exec .ret s = .next t ∧ t.pc = s.stack[k.val] ∧ t.sp.val = k.val ∧
      t = { s with pc := t.pc, sp := t.sp }) ∧
    (s.sp.val = 0 → exec .ret s = .fault .stackUnderflow)

/-- The call and return round trip (source example S5): a return from any state that still holds the stack a call left goes
to the instruction after the call, with SP back where it was. -/
def Obligations.ReturnUndoesCall : Prop :=
  ∀ (nnn : Addr12) (s t u : State), exec (.call nnn) s = .next t → u.sp = t.sp → u.stack = t.stack →
    ∃ w, exec .ret u = .next w ∧ w.pc = s.pc + 2#16 ∧ w.sp = s.sp

/-- R104, R105, R106, R107. The compare skips: PC + 4 when the condition holds, else PC + 2, and nothing else changes. -/
def Obligations.CompareSkips : Prop :=
  ∀ (x y : Reg) (kk : Byte) (s : State),
    exec (.seImm x kk) s = .next { s with pc := s.pc + if (s.reg x).toNat = kk.toNat then 4#16 else 2#16 } ∧
    exec (.sneImm x kk) s = .next { s with pc := s.pc + if (s.reg x).toNat = kk.toNat then 2#16 else 4#16 } ∧
    exec (.seReg x y) s = .next { s with pc := s.pc + if (s.reg x).toNat = (s.reg y).toNat then 4#16 else 2#16 } ∧
    exec (.sneReg x y) s = .next { s with pc := s.pc + if (s.reg x).toNat = (s.reg y).toNat then 2#16 else 4#16 }

/-! ### The ALU -/

/-- R121, R123. Load immediate and register move: V[x] takes the value, PC + 2, no other register, no flag and nothing
else changes. -/
def Obligations.LoadsSetTheRegister : Prop :=
  ∀ (x y : Reg) (kk : Byte) (s : State),
    (∃ t, exec (.ldImm x kk) s = .next t ∧ t.reg x = kk ∧ (∀ r, r ≠ x → t.reg r = s.reg r) ∧
      t.pc = s.pc + 2#16 ∧ t = { s with v := t.v, pc := t.pc }) ∧
    (∃ t, exec (.ldReg x y) s = .next t ∧ t.reg x = s.reg y ∧ (∀ r, r ≠ x → t.reg r = s.reg r) ∧
      t.pc = s.pc + 2#16 ∧ t = { s with v := t.v, pc := t.pc })

/-- R122. Add immediate wraps modulo 256 and touches no flag. -/
def Obligations.AddImmediateWrapsWithoutFlag : Prop :=
  ∀ (x : Reg) (kk : Byte) (s : State),
    ∃ t, exec (.addImm x kk) s = .next t ∧ (t.reg x).toNat = ((s.reg x).toNat + kk.toNat) % 256 ∧
      (∀ r, r ≠ x → t.reg r = s.reg r) ∧ t.pc = s.pc + 2#16 ∧ t = { s with v := t.v, pc := t.pc }

/-- R124, R125, R126. OR, AND and XOR combine bit by bit into V[x]; VF is unaffected unless it is the destination. -/
def Obligations.BitwiseCombineWithoutFlag : Prop :=
  ∀ (x y : Reg) (s : State),
    (∃ t, exec (.orReg x y) s = .next t ∧
      (∀ k, (t.reg x).getLsbD k = ((s.reg x).getLsbD k || (s.reg y).getLsbD k)) ∧
      (∀ r, r ≠ x → t.reg r = s.reg r) ∧ t.pc = s.pc + 2#16 ∧ t = { s with v := t.v, pc := t.pc }) ∧
    (∃ t, exec (.andReg x y) s = .next t ∧
      (∀ k, (t.reg x).getLsbD k = ((s.reg x).getLsbD k && (s.reg y).getLsbD k)) ∧
      (∀ r, r ≠ x → t.reg r = s.reg r) ∧ t.pc = s.pc + 2#16 ∧ t = { s with v := t.v, pc := t.pc }) ∧
    (∃ t, exec (.xorReg x y) s = .next t ∧
      (∀ k, (t.reg x).getLsbD k = ((s.reg x).getLsbD k ^^ (s.reg y).getLsbD k)) ∧
      (∀ r, r ≠ x → t.reg r = s.reg r) ∧ t.pc = s.pc + 2#16 ∧ t = { s with v := t.v, pc := t.pc })

/-- Add registers, every form: V[x] takes the sum modulo 256, VF (where it is not V[x]) the carry; with x = F the sum
replaces the flag, with y = F the old VF is the addend (42_alu.md section 4; the forms that name VF rest on the spec's
decision D8, log 6). -/
def Obligations.AddRegistersSetsCarry : Prop :=
  ∀ (x y : Reg) (s : State),
    ∃ t, exec (.addReg x y) s = .next t ∧ (t.reg x).toNat = ((s.reg x).toNat + (s.reg y).toNat) % 256 ∧
      (x ≠ 15 → (t.reg 15).toNat = if (s.reg x).toNat + (s.reg y).toNat > 255 then 1 else 0) ∧
      (∀ r, r ≠ x → r ≠ 15 → t.reg r = s.reg r) ∧ t.pc = s.pc + 2#16 ∧ t = { s with v := t.v, pc := t.pc }

/-- Subtract and reverse-subtract, every form: V[x] takes the difference modulo 256 (an integer equation), VF (where it is
not V[x]) is 1 exactly when the minuend was strictly greater (42_alu.md section 4; the forms that name VF rest on the
spec's decision D8, log 6). -/
def Obligations.SubtractionsSetTheStrictFlag : Prop :=
  ∀ (x y : Reg) (s : State),
    (∃ t, exec (.sub x y) s = .next t ∧
      ((t.reg x).toNat : Int) = ((s.reg x).toNat - (s.reg y).toNat : Int) % 256 ∧
      (x ≠ 15 → (t.reg 15).toNat = if (s.reg x).toNat > (s.reg y).toNat then 1 else 0) ∧
      (∀ r, r ≠ x → r ≠ 15 → t.reg r = s.reg r) ∧ t.pc = s.pc + 2#16 ∧ t = { s with v := t.v, pc := t.pc }) ∧
    (∃ t, exec (.subn x y) s = .next t ∧
      ((t.reg x).toNat : Int) = ((s.reg y).toNat - (s.reg x).toNat : Int) % 256 ∧
      (x ≠ 15 → (t.reg 15).toNat = if (s.reg y).toNat > (s.reg x).toNat then 1 else 0) ∧
      (∀ r, r ≠ x → r ≠ 15 → t.reg r = s.reg r) ∧ t.pc = s.pc + 2#16 ∧ t = { s with v := t.v, pc := t.pc })

/-- The shifts, every form: by one, of V[x], whatever y is; VF (where it is not V[x]) takes the bit shifted out
(42_alu.md sections 4 and 5; the forms with x = F rest on the spec's decision D8, log 6). -/
def Obligations.ShiftsSetTheBitShiftedOut : Prop :=
  ∀ (x y : Reg) (s : State),
    (∃ t, exec (.shr x y) s = .next t ∧ (t.reg x).toNat = (s.reg x).toNat / 2 ∧
      (x ≠ 15 → (t.reg 15).toNat = (s.reg x).toNat % 2) ∧
      (∀ r, r ≠ x → r ≠ 15 → t.reg r = s.reg r) ∧ t.pc = s.pc + 2#16 ∧ t = { s with v := t.v, pc := t.pc }) ∧
    (∃ t, exec (.shl x y) s = .next t ∧ (t.reg x).toNat = 2 * (s.reg x).toNat % 256 ∧
      (x ≠ 15 → (t.reg 15).toNat = (s.reg x).toNat / 128) ∧
      (∀ r, r ≠ x → r ≠ 15 → t.reg r = s.reg r) ∧ t.pc = s.pc + 2#16 ∧ t = { s with v := t.v, pc := t.pc })

/-- Random-and-mask: V[x] takes the mask of a free byte, so its bits where kk has 0 are 0; the next execution takes the
next free byte (42_alu.md section 6; the form of the free value is the model's choice, log 1). -/
def Obligations.RandomIsMaskedFreeByte : Prop :=
  ∀ (x : Reg) (kk : Byte) (s : State),
    ∃ t, exec (.rnd x kk) s = .next t ∧ t.reg x = Config.rnd s.rndCount &&& kk ∧
      (∀ k, kk.getLsbD k = false → (t.reg x).getLsbD k = false) ∧ t.rndCount = s.rndCount + 1 ∧
      (∀ r, r ≠ x → t.reg r = s.reg r) ∧ t.pc = s.pc + 2#16 ∧
      t = { s with v := t.v, pc := t.pc, rndCount := t.rndCount }

/-! ### Index register and memory -/

/-- R140, R142. Set index and index-to-font-sprite: I takes nnn (bits 15:12 zero), or the whole byte V[x] times 5; PC + 2
and nothing else changes. -/
def Obligations.IndexIsSet : Prop :=
  ∀ (nnn : Addr12) (x : Reg) (s : State),
    (∃ t, exec (.ldI nnn) s = .next t ∧ t.i.toNat = nnn.toNat ∧ t.pc = s.pc + 2#16 ∧
      t = { s with i := t.i, pc := t.pc }) ∧
    (∃ t, exec (.ldF x) s = .next t ∧ t.i.toNat = (s.reg x).toNat * 5 ∧ t.pc = s.pc + 2#16 ∧
      t = { s with i := t.i, pc := t.pc })

/-- Add-to-index: the sum modulo 65536, not masked to 12 bits, no flag (43_index_memory.md; the wrap at 65536 is the
spec's decision D9, log 7). -/
def Obligations.AddToIndexKeepsSixteenBits : Prop :=
  ∀ (x : Reg) (s : State),
    ∃ t, exec (.addI x) s = .next t ∧ t.i.toNat = (s.i.toNat + (s.reg x).toNat) % 65536 ∧ t.pc = s.pc + 2#16 ∧
      t = { s with i := t.i, pc := t.pc }

/-- Store-BCD: the three decimal digits at I, I + 1, I + 2, every other byte unchanged; MemoryOutOfRange when I + 2 is above
0xFFF, nothing written then (43_index_memory.md; the fault is the spec's decision D6, log 8; I unchanged is D10,
log 9, a choice; that a store below 0x200 is allowed is D15, log 20, a choice). -/
def Obligations.StoreBcdWritesThreeDigits : Prop :=
  ∀ (x : Reg) (s : State),
    (s.i.toNat + 2 ≤ 0xFFF → ∃ t, exec (.ldB x) s = .next t ∧
      (t.mem.read s.baseI).toNat = (s.reg x).toNat / 100 ∧
      (t.mem.read (s.baseI + 1)).toNat = (s.reg x).toNat / 10 % 10 ∧
      (t.mem.read (s.baseI + 2)).toNat = (s.reg x).toNat % 10 ∧
      (∀ a, ¬ (s.baseI ≤ a ∧ a < s.baseI + 3) → t.mem.read a = s.mem.read a) ∧
      t.pc = s.pc + 2#16 ∧ t = { s with mem := t.mem, pc := t.pc }) ∧
    (0xFFF < s.i.toNat + 2 → exec (.ldB x) s = .fault (.memoryOutOfRange (max s.i.toNat 0x1000)))

/-- Register-dump: V[0] to V[x] at I to I + x, every other byte and I unchanged; MemoryOutOfRange when I + x is above 0xFFF
(43_index_memory.md; the fault is the spec's decision D6, log 8; I unchanged is D10, log 9; that a store below 0x200 is
allowed is D15, log 20). -/
def Obligations.RegisterDumpStoresTheBlock : Prop :=
  ∀ (x : Reg) (s : State),
    (s.i.toNat + x.val ≤ 0xFFF → ∃ t, exec (.stRegs x) s = .next t ∧
      (∀ k : Reg, k ≤ x → t.mem.read (s.baseI + k.val) = s.reg k) ∧
      (∀ a, ¬ (s.baseI ≤ a ∧ a < s.baseI + (x.val + 1)) → t.mem.read a = s.mem.read a) ∧
      t.pc = s.pc + 2#16 ∧ t = { s with mem := t.mem, pc := t.pc }) ∧
    (0xFFF < s.i.toNat + x.val → exec (.stRegs x) s = .fault (.memoryOutOfRange (max s.i.toNat 0x1000)))

/-- Register-load: V[0] to V[x] from I to I + x, the registers above V[x], memory and I unchanged; MemoryOutOfRange when
I + x is above 0xFFF (43_index_memory.md; the fault is the spec's decision D6, log 8; I unchanged is D10, log 9). -/
def Obligations.RegisterLoadReadsTheBlock : Prop :=
  ∀ (x : Reg) (s : State),
    (s.i.toNat + x.val ≤ 0xFFF → ∃ t, exec (.ldRegs x) s = .next t ∧
      (∀ r : Reg, t.reg r = if r ≤ x then s.mem.read (s.i.toNat + r.val) else s.reg r) ∧
      t.pc = s.pc + 2#16 ∧ t = { s with v := t.v, pc := t.pc }) ∧
    (0xFFF < s.i.toNat + x.val → exec (.ldRegs x) s = .fault (.memoryOutOfRange (max s.i.toNat 0x1000)))

/-- A register-load reads back what a register-dump stored, whatever the registers held in between (20_memory.md
section 2). The load reads at the I the dump left: that this is the I the dump stored at rests on the spec's decision D10
(log 9), a choice: register-dump leaves I unchanged. -/
def Obligations.RegisterLoadReadsBackTheDump : Prop :=
  ∀ (x : Reg) (s t u : State), exec (.stRegs x) s = .next t → u.mem = t.mem → u.i = t.i →
    ∃ w, exec (.ldRegs x) u = .next w ∧ ∀ r : Reg, r ≤ x → w.reg r = s.reg r

/-- A store is seen by the next fetch: a register-dump of V0 and V1 (and more) onto the next instruction word makes that
word {V0, V1} (20_memory.md section 7). -/
def Obligations.NextFetchSeesTheStore : Prop :=
  ∀ (x : Reg) (s t : State), 1 ≤ x.val → s.i = s.pc + 2#16 → exec (.stRegs x) s = .next t →
    ∃ op, fetch t = .ok op ∧ op.toNat = 256 * (s.reg 0).toNat + (s.reg 1).toNat

/-! ### Display -/

/-- R150. Clear-display zeroes every pixel and advances PC; VF, the redraw flag and everything else are unchanged. -/
def Obligations.ClearDisplayZeroesTheScreen : Prop :=
  ∀ s : State, ∃ t, exec .cls s = .next t ∧ (∀ r c, t.fb.pixel r c = false) ∧ t.pc = s.pc + 2#16 ∧
    t = { s with fb := t.fb, pc := t.pc }

/-- Draw, every form, when the sprite's bytes lie in RAM and its rectangle in the grid (nothing asked for n = 0): exactly
the pixels under a 1 bit are inverted, VF is 1 exactly when one of them was set, redraw is set, PC + 2; the coordinates
are those before VF is written; other registers, memory and I are unchanged (44_display.md; bit order D4, log 5; VF as
coordinate D8, log 6; the two limits D5 and D6, log 8; I unchanged D10, log 9; n = 0 D21, log 10). -/
def Obligations.DrawInvertsTheSpritePixels : Prop :=
  ∀ (x y : Reg) (n : Nat) (s : State),
    (1 ≤ n → s.i.toNat + n - 1 ≤ 0xFFF ∧ (s.reg x).toNat ≤ 56 ∧ (s.reg y).toNat + n ≤ 32) →
    ∃ t, exec (.drw x y n) s = .next t ∧
      (∀ r c, SpriteCovers s.mem s.i.toNat (s.reg x).toNat (s.reg y).toNat n r c →
        t.fb.pixel r c = !s.fb.pixel r c) ∧
      (∀ r c, ¬ SpriteCovers s.mem s.i.toNat (s.reg x).toNat (s.reg y).toNat n r c →
        t.fb.pixel r c = s.fb.pixel r c) ∧
      ((∃ r c, SpriteCovers s.mem s.i.toNat (s.reg x).toNat (s.reg y).toNat n r c ∧ s.fb.pixel r c = true) →
        t.reg 15 = 1#8) ∧
      ((∀ r c, SpriteCovers s.mem s.i.toNat (s.reg x).toNat (s.reg y).toNat n r c → s.fb.pixel r c = false) →
        t.reg 15 = 0#8) ∧
      t.redraw = true ∧ (∀ r, r ≠ 15 → t.reg r = s.reg r) ∧ t.pc = s.pc + 2#16 ∧
      t = { s with v := t.v, fb := t.fb, redraw := t.redraw, pc := t.pc }

/-- Draw that does not fit: MemoryOutOfRange when a sprite byte lies above 0xFFF, else DrawOutOfRange when the rectangle is
not wholly inside the grid, blank columns included; never for n = 0 (44_display.md; the spec's decisions D5, D6, D18,
log 8). -/
def Obligations.DrawThatDoesNotFitRaises : Prop :=
  ∀ (x y : Reg) (n : Nat) (s : State), 1 ≤ n →
    (0xFFF < s.i.toNat + n - 1 → exec (.drw x y n) s = .fault (.memoryOutOfRange (max s.i.toNat 0x1000))) ∧
    (s.i.toNat + n - 1 ≤ 0xFFF → (56 < (s.reg x).toNat ∨ 32 < (s.reg y).toNat + n) →
      exec (.drw x y n) s = .fault .drawOutOfRange)

/-- The source's property S8: the same sprite drawn twice at the same place leaves the screen as it was, and the second draw
reports a collision when the first one met clear pixels and the sprite has a 1 bit. The second draw reads the same sprite
because draw leaves I unchanged: the spec's decision D10 (log 9), a choice. With x = F or y = F the first draw's flag is a
coordinate of the second, so the place is not the same; those forms are in DrawInvertsTheSpritePixels. -/
def Obligations.DrawingTwiceRestoresTheScreen : Prop :=
  ∀ (x y : Reg) (n : Nat) (s t : State), x ≠ 15 → y ≠ 15 → exec (.drw x y n) s = .next t →
    ∃ u, exec (.drw x y n) t = .next u ∧ u.fb = s.fb ∧
      ((∀ r c, SpriteCovers s.mem s.i.toNat (s.reg x).toNat (s.reg y).toNat n r c → s.fb.pixel r c = false) →
        (∃ r c, SpriteCovers s.mem s.i.toNat (s.reg x).toNat (s.reg y).toNat n r c) → u.reg 15 = 1#8)

/-! ### Keypad and timers -/

/-- The key skips: with V[x] at most 15, PC + 4 when key V[x] is pressed (SKP) or not pressed (SKNP), else PC + 2, and
nothing else changes; with V[x] above 15, KeyIndexOutOfRange, not masked (45_keypad_timers.md; the fault is the spec's
decision D7, log 8). -/
def Obligations.KeySkipsReadTheIndexedKey : Prop :=
  ∀ (x : Reg) (s : State),
    (∀ k : Fin 16, (s.reg x).toNat = k.val →
      exec (.skp x) s = .next { s with pc := s.pc + if s.keys[k.val] = true then 4#16 else 2#16 } ∧
      exec (.sknp x) s = .next { s with pc := s.pc + if s.keys[k.val] = true then 2#16 else 4#16 }) ∧
    (15 < (s.reg x).toNat →
      exec (.skp x) s = .fault (.keyIndexOutOfRange (s.reg x)) ∧
      exec (.sknp x) s = .fault (.keyIndexOutOfRange (s.reg x)))

/-- Wait-for-key: with a key pressed, V[x] takes the least pressed index and PC + 2; with none, nothing changes at all, PC
included, and the step still succeeds (45_keypad_timers.md; the scan order is the spec's decision D11, log 11). -/
def Obligations.WaitForKeyTakesTheLeastPressedKey : Prop :=
  ∀ (x : Reg) (s : State),
    (∀ k : Fin 16, s.keys[k.val] = true → (∀ j : Fin 16, j < k → s.keys[j.val] = false) →
      ∃ t, exec (.ldVxK x) s = .next t ∧ (t.reg x).toNat = k.val ∧ (∀ r, r ≠ x → t.reg r = s.reg r) ∧
        t.pc = s.pc + 2#16 ∧ t = { s with v := t.v, pc := t.pc }) ∧
    ((∀ k : Fin 16, s.keys[k.val] = false) → exec (.ldVxK x) s = .next s)

/-- The timer instructions, and what the tick of the same step makes of them: load-delay-timer reads DT before the tick;
set-delay-timer and set-sound-timer leave max(0, V[x] - 1) once the step is over, so ST set from 1 is never heard
(45_keypad_timers.md). -/
def Obligations.TimersAreReadAndSetBeforeTheTick : Prop :=
  ∀ (x : Reg) (s : State),
    (∃ t, exec (.ldVxDt x) s = .next t ∧ t.reg x = s.dt ∧ t.tick.dt.toNat = s.dt.toNat - 1 ∧
      (∀ r, r ≠ x → t.reg r = s.reg r) ∧ t.pc = s.pc + 2#16 ∧ t = { s with v := t.v, pc := t.pc }) ∧
    (∃ t, exec (.ldDtVx x) s = .next t ∧ t.dt = s.reg x ∧ t.tick.dt.toNat = (s.reg x).toNat - 1 ∧
      t.pc = s.pc + 2#16 ∧ t = { s with dt := t.dt, pc := t.pc }) ∧
    (∃ t, exec (.ldStVx x) s = .next t ∧ t.st = s.reg x ∧ t.tick.st.toNat = (s.reg x).toNat - 1 ∧
      (t.tick.soundOn = true ↔ 1 < (s.reg x).toNat) ∧
      t.pc = s.pc + 2#16 ∧ t = { s with st := t.st, pc := t.pc })

/-! ### The end of a run -/

/-- No state is final: every call of step is answered, with a next state or with one error and the state as it was; the end
of a run is no exception, and neither is a wait for a key, which goes on waiting until the host presses one and completes
then (40_step_cycle.md R97, 10_state.md section 8). No tick on a failing step is the spec's decision D12, log 16; what
counts as the end of a run is the model's choice, log 23. -/
def Obligations.NoStateIsFinal : Prop :=
  ∀ s : State,
    ((∃ t, stepCall s = (t, .next ())) ∨ ∃ f, stepCall s = (s, .fault f)) ∧
    (s.AtRunEnd ∨ s.AwaitingKey → stepCall s =
      ({ s with dt := BitVec.ofNat 8 (s.dt.toNat - 1), st := BitVec.ofNat 8 (s.st.toNat - 1) }, .next ())) ∧
    (s.AwaitingKey → ∀ (keys : Vector Bool 16) (k : Fin 16), keys[k.val] = true →
      ∃ t, stepCall (s.writeKeys keys) = (t, .next ()) ∧ t.pc = s.pc + 2#16)

/-- A run that has ended stays ended: every further step succeeds and changes only the timers, which fall to zero, and
neither a write of the keys nor a clear of the redraw flag undoes the end (40_step_cycle.md R97). The machine has no
end of a run: the definition is the model's choice, log 23. -/
def Obligations.RunEndIsKeptByEveryFurtherStep : Prop :=
  ∀ (n k : Nat) (s t : State), RunEndsAt n s t →
    RunEndsAt (n + k) s
      { t with dt := BitVec.ofNat 8 (t.dt.toNat - k), st := BitVec.ofNat 8 (t.st.toNat - k) } ∧
    (∀ keys : Vector Bool 16, (t.writeKeys keys).AtRunEnd) ∧ t.clearRedraw.AtRunEnd

/-! ### Invariants -/

/-- From every state that meets the invariant, reachable or not, a step gives a state that meets it: memory stays canonical
and inside RAM, PC stays at most 0x10FE, live stack entries stay at most 0x1000 (10_state.md sections 2 and 9). -/
def Obligations.StepKeepsTheInvariant : Prop :=
  ∀ s t : State, s.Inv → step s = .next t → t.Inv

/-- The reset state meets the invariant. -/
def Obligations.ResetMeetsTheInvariant : Prop := State.reset.Inv

/-- Every host action keeps the invariant: a reset with any FONT, a load of any image, a write of the keys, a clear of the
redraw flag (60_exceptions.md section 7, 70_reset_and_hazards.md sections 1 and 2). -/
def Obligations.HostActionsKeepTheInvariant : Prop :=
  ∀ (a : HostAction) (s t : State), s.Inv → hostAct a s = .next t → t.Inv

/-- Dead stack entries are unobservable: two states that differ only in them take the same step, to states that differ only
in them, or raise the same error (10_state.md section 5). -/
def Obligations.DeadStackEntriesAreUnobservable : Prop :=
  ∀ s t : State, SameButDeadStack s t →
    (∀ u, step s = .next u → ∃ w, step t = .next w ∧ SameButDeadStack u w) ∧
    (∀ f, step s = .fault f → step t = .fault f)

/-! ### Reset and the host -/

/-- Right after a reset with any FONT: PC = 0x200, stack empty, all registers zero, the font table resident at 0x000 to
0x04F, every other byte of memory zero (70_reset_and_hazards.md section 1, 10_state.md section 9). That an address above
0xFFF, which is no memory, reads as zero is the model's choice of log 13. -/
def Obligations.ResetLeavesTheInitialState : Prop :=
  ∀ font : Vector Byte 80,
    (State.resetWith font).pc = 0x200#16 ∧ (State.resetWith font).sp.val = 0 ∧
    (∀ r : Reg, (State.resetWith font).reg r = 0#8) ∧
    (∀ k : Fin 80, (State.resetWith font).mem.read k.val = font[k.val]) ∧
    (∀ a, 0x50 ≤ a → (State.resetWith font).mem.read a = 0#8)

/-- The reset values the spec decides (decision D13, log 4; not the source's): I, both timers, the screen, the keys and the
redraw flag are zero; and `State.reset` is the reset with the default FONT (log 3, the model's presumption). -/
def Obligations.ResetZeroesTheDecidedState : Prop :=
  (∀ font : Vector Byte 80, (State.resetWith font).i = 0#16 ∧ (State.resetWith font).dt = 0#8 ∧
    (State.resetWith font).st = 0#8 ∧ (∀ r c, (State.resetWith font).fb.pixel r c = false) ∧
    (∀ k : Fin 16, (State.resetWith font).keys[k.val] = false) ∧ (State.resetWith font).redraw = false) ∧
  (∀ font : Vector Byte 80, font.toList = defaultFont → State.resetWith font = State.reset)

/-- Reset loads no program: the first step from it fetches 0x0000 and raises UnknownOpcode (70_reset_and_hazards.md
section 1). -/
def Obligations.FirstStepAfterResetRaises : Prop :=
  stepCall State.reset = (State.reset, .fault (.unknownOpcode 0x0000#16))

/-- Load copies an image of at most 3584 bytes to 0x200 and changes no other byte and no other state; a longer one raises
RomTooLarge and changes nothing (70_reset_and_hazards.md section 2; the order of test and copy is the spec's decision
D16, log 12). -/
def Obligations.LoadCopiesTheImage : Prop :=
  ∀ (bytes : List Byte) (s : State),
    (bytes.length ≤ 0xE00 → ∃ t, loadImage bytes s = .next t ∧
      (∀ k : Fin bytes.length, t.mem.read (0x200 + k.val) = bytes[k.val]) ∧
      (∀ a, ¬ (0x200 ≤ a ∧ a < 0x200 + bytes.length) → t.mem.read a = s.mem.read a) ∧
      t = { s with mem := t.mem }) ∧
    (0xE00 < bytes.length →
      loadImage bytes s = .fault .romTooLarge ∧ hostCall (.load bytes) s = (s, .fault .romTooLarge))

/-- A failed step fails forever without a load or a reset: the state is what it was, a repeated step raises the same error,
and neither a write of the keys nor a clear of the redraw flag can change that (60_exceptions.md sections 1 and 4). -/
def Obligations.FailedStepFailsAgain : Prop :=
  ∀ (s : State) (f : Fault), (stepCall s).2 = .fault f →
    (stepCall s).1 = s ∧ stepCall (stepCall s).1 = (s, .fault f) ∧
    (∀ keys : Vector Bool 16, stepCall (s.writeKeys keys) = (s.writeKeys keys, .fault f)) ∧
    stepCall s.clearRedraw = (s.clearRedraw, .fault f)

/-- Whether and when the host clears the redraw flag has no effect on a run but the flag itself: a run from the cleared state
makes the same steps (60_exceptions.md section 7, 10_state.md section 4). -/
def Obligations.RedrawFlagDoesNotAffectRuns : Prop :=
  ∀ (n : Nat) (s t : State), RunsTo n s t →
    ∃ b : Bool, RunsTo n s.clearRedraw { t with redraw := b }
end

