-- ==== Sys2Proof/Laws/Decode.lean ====
section
/-! SUPPORT. The fields of a word and the formats of the encoder as natural numbers, and each field of each format. -/

namespace Sys2Proof

/-! ### Fields as natural numbers -/

theorem toNat_fieldMajor (op : Word) : (fieldMajor op).toNat = op.toNat / 4096 := by
  have := op.isLt
  simp [fieldMajor, Nat.shiftRight_eq_div_pow]; omega

theorem val_fieldX (op : Word) : (fieldX op).val = op.toNat / 256 % 16 := by
  show (op.extractLsb' 8 4).toNat = _
  simp [Nat.shiftRight_eq_div_pow]

theorem val_fieldY (op : Word) : (fieldY op).val = op.toNat / 16 % 16 := by
  show (op.extractLsb' 4 4).toNat = _
  simp [Nat.shiftRight_eq_div_pow]

theorem fieldN_eq (op : Word) : fieldN op = op.toNat % 16 := by simp [fieldN]

theorem toNat_fieldKk (op : Word) : (fieldKk op).toNat = op.toNat % 256 := by simp [fieldKk]

theorem toNat_fieldNnn (op : Word) : (fieldNnn op).toNat = op.toNat % 4096 := by simp [fieldNnn]

/-! ### Formats and words of bytes as natural numbers -/

theorem toNat_append_eq {n k : Nat} (a : BitVec n) (b : BitVec k) : (a ++ b).toNat = a.toNat * 2 ^ k + b.toNat := by
  rw [BitVec.toNat_append, ← Nat.shiftLeft_add_eq_or_of_lt b.isLt, Nat.shiftLeft_eq]

theorem toNat_wordOfBytes (hi lo : Byte) : (wordOfBytes hi lo).toNat = 256 * hi.toNat + lo.toNat := by
  unfold wordOfBytes; rw [toNat_append_eq]; omega

theorem toNat_formatA (m : BitVec 4) (nnn : Addr12) : (formatA m nnn).toNat = m.toNat * 4096 + nnn.toNat := by
  unfold formatA; rw [toNat_append_eq]; omega

theorem toNat_formatXK (m : BitVec 4) (x : Reg) (kk : Byte) :
    (formatXK m x kk).toNat = m.toNat * 4096 + x.val * 256 + kk.toNat := by
  unfold formatXK; rw [toNat_append_eq, toNat_append_eq]; simp only [BitVec.toNat_ofFin]; omega

theorem toNat_formatXY (m : BitVec 4) (x y : Reg) (n : BitVec 4) :
    (formatXY m x y n).toNat = m.toNat * 4096 + x.val * 256 + y.val * 16 + n.toNat := by
  unfold formatXY; rw [toNat_append_eq, toNat_append_eq, toNat_append_eq]; simp only [BitVec.toNat_ofFin]; omega

/-! ### Fields of formats -/

theorem major_formatA (m : BitVec 4) (nnn : Addr12) : (fieldMajor (formatA m nnn)).toNat = m.toNat := by
  have := nnn.isLt
  rw [toNat_fieldMajor, toNat_formatA]; omega

theorem nnn_formatA (m : BitVec 4) (nnn : Addr12) : fieldNnn (formatA m nnn) = nnn := by
  have := nnn.isLt
  apply BitVec.eq_of_toNat_eq; rw [toNat_fieldNnn, toNat_formatA]; omega

theorem major_formatXK (m : BitVec 4) (x : Reg) (kk : Byte) : (fieldMajor (formatXK m x kk)).toNat = m.toNat := by
  have := kk.isLt; have := x.isLt
  rw [toNat_fieldMajor, toNat_formatXK]; omega

theorem x_formatXK (m : BitVec 4) (x : Reg) (kk : Byte) : fieldX (formatXK m x kk) = x := by
  have := kk.isLt; have := x.isLt
  apply Fin.ext; rw [val_fieldX, toNat_formatXK]; omega

theorem kk_formatXK (m : BitVec 4) (x : Reg) (kk : Byte) : fieldKk (formatXK m x kk) = kk := by
  have := kk.isLt
  apply BitVec.eq_of_toNat_eq; rw [toNat_fieldKk, toNat_formatXK]; omega

theorem major_formatXY (m : BitVec 4) (x y : Reg) (n : BitVec 4) : (fieldMajor (formatXY m x y n)).toNat = m.toNat := by
  have := x.isLt; have := y.isLt; have := n.isLt
  rw [toNat_fieldMajor, toNat_formatXY]; omega

theorem x_formatXY (m : BitVec 4) (x y : Reg) (n : BitVec 4) : fieldX (formatXY m x y n) = x := by
  have := x.isLt; have := y.isLt; have := n.isLt
  apply Fin.ext; rw [val_fieldX, toNat_formatXY]; omega

theorem y_formatXY (m : BitVec 4) (x y : Reg) (n : BitVec 4) : fieldY (formatXY m x y n) = y := by
  have := x.isLt; have := y.isLt; have := n.isLt
  apply Fin.ext; rw [val_fieldY, toNat_formatXY]; omega

theorem n_formatXY (m : BitVec 4) (x y : Reg) (n : BitVec 4) : fieldN (formatXY m x y n) = n.toNat := by
  have := n.isLt
  rw [fieldN_eq, toNat_formatXY]; omega

/-- The two bytes of a word, put together again, are the word. -/
theorem decode_bytesOfWord (op : Word) (rest : List Byte) :
    decode (bytesOfWord op ++ rest) =
      match decodeWord op with
      | some i => .ok (i, rest)
      | none => .error (.unknownOpcode op) := by
  have h : wordOfBytes (op.extractLsb' 8 8) (op.extractLsb' 0 8) = op := by
    have := op.isLt
    apply BitVec.eq_of_toNat_eq; rw [toNat_wordOfBytes]
    simp [Nat.shiftRight_eq_div_pow]; omega
  show (match decodeWord (wordOfBytes _ _) with | some i => _ | none => _) = _
  rw [h]; rfl

end Sys2Proof
end

