-- ==== Sys2Proof/Laws/Memory.lean ====
section
/-! SUPPORT. Memory: a read after a write, and that every memory operation keeps the canonical form. -/

namespace Sys2Proof.Machine

/-! ### Reads -/

theorem Memory.read_erase_same (m : Memory) (a : Nat) : (m.erase a).read a = Memory.unlisted a := by
  induction m with
  | nil => rfl
  | cons c rest ih =>
    by_cases h : c.1 = a
    · simpa [Memory.erase, h] using ih
    · simpa [Memory.erase, h, Memory.read, Ne.symm h] using ih

theorem Memory.read_erase_ne (m : Memory) {a b : Nat} (hb : b ≠ a) : (m.erase a).read b = m.read b := by
  induction m with
  | nil => rfl
  | cons c rest ih =>
    by_cases h : c.1 = a
    · simpa [Memory.erase, h, Memory.read, hb] using ih
    · by_cases hc : b = c.1
      · simp [Memory.erase, h, Memory.read, hc]
      · simpa [Memory.erase, h, Memory.read, hc] using ih

theorem Memory.read_insertCell (m : Memory) (a b : Nat) (v : Byte) (h : ∀ c ∈ m, c.1 ≠ a) :
    (m.insertCell (a, v)).read b = if b = a then v else m.read b := by
  induction m with
  | nil => simp [Memory.insertCell, Memory.read]
  | cons c rest ih =>
    have hc : c.1 ≠ a := h c (by simp)
    have hrest := ih fun d hd => h d (by simp [hd])
    by_cases hlt : a < c.1
    · simp [Memory.insertCell, hlt, Memory.read]
    · by_cases hb : b = c.1
      · simp [Memory.insertCell, hlt, Memory.read, hb, hc]
      · simp [Memory.insertCell, hlt, Memory.read, hb, hrest]

theorem Memory.erase_ne (m : Memory) (a : Nat) : ∀ c ∈ m.erase a, c.1 ≠ a := by
  intro c hc
  simpa using (List.mem_filter.mp hc).2

/-- A read after a write, at any address and in any memory (R50, R51). -/
theorem Memory.read_write (m : Memory) (a b : Nat) (v : Byte) :
    (m.write a v).read b = if b = a then v else m.read b := by
  unfold Memory.write
  split
  · rename_i h
    by_cases hb : b = a
    · subst hb; simp [Memory.read_erase_same, h]
    · simp [hb, Memory.read_erase_ne m hb]
  · rw [Memory.read_insertCell _ _ _ _ (Memory.erase_ne m a)]
    by_cases hb : b = a
    · simp [hb]
    · simp [hb, Memory.read_erase_ne m hb]

/-- A read after a run of bytes is written: the byte of the run, or what was there. -/
theorem Memory.read_writeBytes (bs : List Byte) : ∀ (m : Memory) (base b : Nat),
    (m.writeBytes base bs).read b =
      if base ≤ b ∧ b < base + bs.length then bs.getD (b - base) 0#8 else m.read b := by
  induction bs with
  | nil =>
    intro m base b
    have h : ¬ (base ≤ b ∧ b < base + ([] : List Byte).length) := by simp
    rw [if_neg h]; rfl
  | cons v rest ih =>
    intro m base b
    rw [Memory.writeBytes, ih, Memory.read_write]
    simp only [List.length_cons]
    by_cases h1 : b = base
    · subst h1; simp
    · by_cases h2 : base + 1 ≤ b ∧ b < base + 1 + rest.length
      · have h3 : base ≤ b ∧ b < base + (rest.length + 1) := by omega
        obtain ⟨k, rfl⟩ : ∃ k, b = base + 1 + k := ⟨b - (base + 1), by omega⟩
        have e1 : base + 1 + k - (base + 1) = k := by omega
        have e2 : base + 1 + k - base = k + 1 := by omega
        simp [h2, h3, e1, e2]
      · have h3 : ¬ (base ≤ b ∧ b < base + (rest.length + 1)) := by omega
        rw [if_neg h2, if_neg h1, if_neg h3]

/-! ### The canonical form -/

theorem Memory.wfFrom_mono {m : Memory} {l l' : Nat} (h : m.wfFrom l' = true) (hl : l ≤ l') : m.wfFrom l = true := by
  cases m with
  | nil => rfl
  | cons c rest =>
    simp only [Memory.wfFrom, Bool.and_eq_true, decide_eq_true_eq] at h ⊢
    exact ⟨⟨⟨hl.trans h.1.1.1, h.1.1.2⟩, h.1.2⟩, h.2⟩

theorem Memory.wfFrom_erase (m : Memory) (a l : Nat) (h : m.wfFrom l = true) : (m.erase a).wfFrom l = true := by
  induction m generalizing l with
  | nil => rfl
  | cons c rest ih =>
    simp only [Memory.wfFrom, Bool.and_eq_true, decide_eq_true_eq] at h
    obtain ⟨⟨⟨h1, h2⟩, h3⟩, h4⟩ := h
    have hr := ih _ h4
    by_cases hc : c.1 = a
    · have : Memory.erase (c :: rest) a = Memory.erase rest a := by simp [Memory.erase, hc]
      rw [this]; exact Memory.wfFrom_mono hr (by omega)
    · have : Memory.erase (c :: rest) a = c :: Memory.erase rest a := by simp [Memory.erase, hc]
      rw [this]
      simp only [Memory.wfFrom, Bool.and_eq_true, decide_eq_true_eq]
      exact ⟨⟨⟨h1, h2⟩, h3⟩, hr⟩

theorem Memory.wfFrom_insertCell (m : Memory) (a l : Nat) (v : Byte) (h : m.wfFrom l = true) (hl : l ≤ a)
    (ha : a < Config.memSize) (hv : v ≠ Memory.unlisted a) (hm : ∀ c ∈ m, c.1 ≠ a) :
    (m.insertCell (a, v)).wfFrom l = true := by
  induction m generalizing l with
  | nil => simp [Memory.insertCell, Memory.wfFrom, hl, ha, hv]
  | cons c rest ih =>
    have hc : c.1 ≠ a := hm c (by simp)
    simp only [Memory.wfFrom, Bool.and_eq_true, decide_eq_true_eq] at h
    obtain ⟨⟨⟨h1, h2⟩, h3⟩, h4⟩ := h
    by_cases hlt : a < c.1
    · simp only [Memory.insertCell, hlt, if_true, Memory.wfFrom, Bool.and_eq_true, decide_eq_true_eq]
      exact ⟨⟨⟨hl, ha⟩, hv⟩, ⟨⟨by omega, h2⟩, h3⟩, h4⟩
    · simp only [Memory.insertCell, hlt, if_false, Memory.wfFrom, Bool.and_eq_true, decide_eq_true_eq]
      exact ⟨⟨⟨h1, h2⟩, h3⟩, ih _ h4 (by omega) fun d hd => hm d (by simp [hd])⟩

/-- A write inside RAM keeps the canonical form. -/
theorem Memory.wf_write (m : Memory) (a : Nat) (v : Byte) (h : m.wf = true) (ha : a < Config.memSize) :
    (m.write a v).wf = true := by
  have he : (m.erase a).wfFrom 0 = true := Memory.wfFrom_erase m a 0 h
  unfold Memory.write Memory.wf
  split
  · exact he
  · rename_i hv
    exact Memory.wfFrom_insertCell _ _ _ _ he (by omega) ha hv (Memory.erase_ne m a)

/-- A run of bytes written inside RAM keeps the canonical form. -/
theorem Memory.wf_writeBytes (bs : List Byte) : ∀ (m : Memory) (base : Nat), m.wf = true →
    base + bs.length ≤ Config.memSize → (m.writeBytes base bs).wf = true := by
  induction bs with
  | nil => intro m base h _; exact h
  | cons v rest ih =>
    intro m base h hb
    simp only [List.length_cons] at hb
    exact ih _ _ (Memory.wf_write m base v h (by omega)) (by omega)

/-- The default FONT written at its place lists nothing: it is what unlisted addresses read as. -/
theorem Memory.writeBytes_defaultFont : Memory.writeBytes [] 0 defaultFont = [] := by decide +kernel

theorem State.reset_mem_wf : State.reset.mem.wf = true := rfl

end Sys2Proof.Machine
end

