-- ==== Sys2Proof/Laws/Ops.lean ====
section
/-! SUPPORT. What each shared operation can do, said once: access tests, push and pop, the timers, fetch, the end of a
step, the step itself, operands. -/

namespace Sys2Proof.Machine

/-! ### Access tests -/

/-- No fault exactly when every address of the access is at most 0xFFF. -/
theorem accessFault_eq_none (base len : Nat) : accessFault base len = none ↔ (len = 0 ∨ base + len ≤ 0x1000) := by
  unfold accessFault; split
  · simp; omega
  · simp; omega

/-- The fault carries the lowest address above 0xFFF. -/
theorem accessFault_eq_some (base len : Nat) (f : Fault) :
    accessFault base len = some f ↔
      (1 ≤ len ∧ 0x1000 < base + len ∧ f = .memoryOutOfRange (max base 0x1000)) := by
  unfold accessFault; split
  · simp only [Option.some.injEq]; constructor
    · intro h; exact ⟨by omega, by omega, h.symm⟩
    · intro h; exact h.2.2.symm
  · simp only [reduceCtorEq, false_iff]; omega

theorem guardAccess_ok {base len : Nat} {go : Result} (h : len = 0 ∨ base + len ≤ 0x1000) :
    guardAccess base len go = go := by
  unfold guardAccess; rw [(accessFault_eq_none base len).2 h]

theorem guardAccess_fault {base len : Nat} {go : Result} (h1 : 1 ≤ len) (h2 : 0x1000 < base + len) :
    guardAccess base len go = .fault (.memoryOutOfRange (max base 0x1000)) := by
  unfold guardAccess; rw [(accessFault_eq_some base len _).2 ⟨h1, h2, rfl⟩]; rfl

/-- A guarded operation that answers a next state passed its test. -/
theorem guardAccess_next {base len : Nat} {go : Result} {t : State} (h : guardAccess base len go = .next t) :
    (len = 0 ∨ base + len ≤ 0x1000) ∧ go = .next t := by
  unfold guardAccess at h
  split at h
  · cases h
  · rename_i hf; exact ⟨(accessFault_eq_none _ _).1 hf, h⟩

/-! ### The call stack -/

theorem State.push_ok {s t : State} {w : Word} (h : s.push w = .ok t) :
    ∃ hs : s.sp.val < 16,
      t = { s with stack := s.stack.set s.sp.val w hs, sp := ⟨s.sp.val + 1, Nat.succ_lt_succ hs⟩ } := by
  unfold State.push at h
  split at h
  · rename_i hs; exact ⟨hs, (Except.ok.inj h).symm⟩
  · cases h

theorem State.push_error {s : State} {w : Word} {f : Fault} (h : s.push w = .error f) :
    s.sp.val = 16 ∧ f = .stackOverflow := by
  unfold State.push at h
  split at h
  · cases h
  · rename_i hs
    have := s.sp.isLt
    exact ⟨by simp [Config.stackDepth] at hs; omega, (Except.error.inj h).symm⟩

theorem State.pop_ok {s t : State} {w : Word} (h : s.pop = .ok (w, t)) :
    s.sp.val ≠ 0 ∧ w = s.stack[s.sp.val - 1]'(by have := s.sp.isLt; omega) ∧
      t = { s with sp := ⟨s.sp.val - 1, by have := s.sp.isLt; omega⟩ } := by
  unfold State.pop at h
  split at h
  · cases h
  · rename_i hs
    have h' := Except.ok.inj h
    exact ⟨hs, (congrArg Prod.fst h').symm, (congrArg Prod.snd h').symm⟩

theorem State.pop_error {s : State} {f : Fault} (h : s.pop = .error f) : s.sp.val = 0 ∧ f = .stackUnderflow := by
  unfold State.pop at h
  split at h
  · rename_i hs; exact ⟨hs, (Except.error.inj h).symm⟩
  · cases h

/-! ### Timers -/

/-- One decrement on natural numbers: truncated subtraction. -/
theorem toNat_countDown (t : Byte) : (countDown t).toNat = t.toNat - 1 := by
  unfold countDown; split
  · rename_i h; simp [h]
  · rename_i h
    have : t.toNat ≠ 0 := fun h0 => h (BitVec.eq_of_toNat_eq (by simpa using h0))
    have := t.isLt
    rw [BitVec.toNat_sub]; simp; omega

/-! ### The step -/

theorem fetch_ok {s : State} (h : s.pc.toNat ≤ 0xFFE) :
    fetch s = .ok (wordOfBytes (s.mem.read s.pc.toNat) (s.mem.read (s.pc.toNat + 1))) := by
  unfold fetch; rw [(accessFault_eq_none s.pc.toNat 2).2 (by omega)]

theorem fetch_error {s : State} (h : 0xFFE < s.pc.toNat) :
    fetch s = .error (.memoryOutOfRange (max s.pc.toNat 0x1000)) := by
  unfold fetch; rw [(accessFault_eq_some s.pc.toNat 2 _).2 ⟨by omega, by omega, rfl⟩]

theorem fetch_ok_pc {s : State} {op : Word} (h : fetch s = .ok op) : s.pc.toNat ≤ 0xFFE := by
  by_contra hc; rw [fetch_error (by omega)] at h; cases h

theorem finishStep_next {r : Result} {t : State} : finishStep r = .next t ↔ ∃ u, r = .next u ∧ t = u.tick := by
  cases r <;> simp [finishStep, eq_comm]

theorem finishStep_fault {r : Result} {f : Fault} : finishStep r = .fault f ↔ r = .fault f := by
  cases r <;> simp [finishStep]

/-- What a step that raises nothing did: it fetched a word, decoded it, executed the instruction, and ticked. -/
theorem step_next {s t : State} (h : step s = .next t) :
    ∃ op i u, fetch s = .ok op ∧ decodeWord op = some i ∧ exec i s = .next u ∧ t = u.tick := by
  unfold step at h
  split at h
  · cases h
  · rename_i op hf
    split at h
    · cases h
    · rename_i i hd
      obtain ⟨u, hu, ht⟩ := finishStep_next.1 h
      exact ⟨op, i, u, hf, hd, hu, ht⟩

/-! ### Operands -/

theorem keyIndex_ok {b : Byte} {k : Fin 16} : keyIndex b = .ok k ↔ b.toNat = k.val := by
  unfold keyIndex; split
  · rename_i h; simp [Fin.ext_iff]
  · rename_i h; simp only [reduceCtorEq, false_iff]; have := k.isLt; omega

theorem keyIndex_error {b : Byte} {f : Fault} : keyIndex b = .error f ↔ (16 ≤ b.toNat ∧ f = .keyIndexOutOfRange b) := by
  unfold keyIndex; split
  · rename_i h; simp; omega
  · rename_i h; simp [eq_comm]; omega

theorem mem_keyScan (k : Fin 16) : k ∈ keyScan := by revert k; decide

/-- A key scan that finds nothing: no key is pressed. -/
theorem State.firstKey_none {s : State} : s.firstKey = none ↔ ∀ k, s.keyPressed k = false := by
  unfold State.firstKey; rw [List.find?_eq_none]
  exact ⟨fun h k => by simpa using h k (mem_keyScan k), fun h k _ => by simp [h k]⟩

theorem keyScan_sorted : keyScan.Pairwise (· < ·) := by decide

/-- A key scan that finds `k`: it is pressed, and no key below it is. -/
theorem State.firstKey_some {s : State} {k : Fin 16} :
    s.firstKey = some k ↔ (s.keyPressed k = true ∧ ∀ j, j < k → s.keyPressed j = false) := by
  have fwd : ∀ k, s.firstKey = some k → (s.keyPressed k = true ∧ ∀ j, j < k → s.keyPressed j = false) := by
    intro k h
    obtain ⟨hk, as, bs, hl, hnot⟩ := List.find?_eq_some_iff_append.1 h
    refine ⟨hk, fun j hj => ?_⟩
    have hmem := mem_keyScan j
    have hsort := keyScan_sorted
    rw [hl] at hmem hsort
    rcases List.mem_append.1 hmem with ha | hb
    · simpa using hnot j ha
    · have hp := (List.pairwise_append.1 hsort).2.1
      rcases List.mem_cons.1 hb with rfl | hb
      · exact absurd hj (lt_irrefl _)
      · exact absurd ((List.pairwise_cons.1 hp).1 j hb) (not_lt.2 (le_of_lt hj))
  refine ⟨fwd k, fun ⟨hk, hlow⟩ => ?_⟩
  cases hf : s.firstKey with
  | none => rw [State.firstKey_none.1 hf k] at hk; cases hk
  | some j =>
    obtain ⟨hj, hjlow⟩ := fwd j hf
    rcases lt_trichotomy j k with h | h | h
    · rw [hlow j h] at hj; cases hj
    · rw [h]
    · rw [hjlow k h] at hk; cases hk

@[simp] theorem State.length_regBlock (s : State) (x : Reg) : (s.regBlock x).length = x.val + 1 := by
  have := x.isLt
  simp [State.regBlock]

/-- The `k`-th byte of a register block is V[k]. -/
theorem State.getD_regBlock (s : State) (x k : Reg) (h : k ≤ x) : (s.regBlock x).getD k.val 0#8 = s.reg k := by
  have hk : k.val < x.val + 1 := Nat.lt_succ_of_le h
  rw [List.getD_eq_getElem _ _ (by simpa using hk)]
  simp [State.regBlock, State.reg]

/-- The registers after a block is loaded: V[r] for r below the count from memory, the others as they were. -/
theorem getElem_loadBlock (m : Memory) (base : Nat) (v : Vector Byte 16) (count r : Nat) (hr : r < 16) :
    (loadBlock m base count v)[r] = if r < count then m.read (base + r) else v[r] := by
  induction count with
  | zero => simp [loadBlock]
  | succ k ih =>
    unfold loadBlock
    split
    · rename_i hk
      rw [Vector.getElem_set, ih]
      by_cases h : k = r
      · subst h; simp
      · by_cases h2 : r < k
        · simp [h, h2, Nat.lt_succ_of_lt h2]
        · have : ¬ r < k + 1 := by omega
          simp [h, h2, this]
    · rename_i hk
      rw [ih]; have h1 : r < k := by omega
      have h2 : r < k + 1 := by omega
      simp [h1, h2]

end Sys2Proof.Machine
end

