-- ==== Sys2Proof/Laws/PerInstr.lean ====
section
/-! SUPPORT. Per instruction: the word the encoder gives carries the fixed bits of the instruction's own row of
30_encoding.md R78. -/

namespace Sys2Proof.Laws.FixedBits

/-- The encoding of `i` has, under the mask of the row of R78 that bears its id, that row's match value. -/
def Statement (i : Instr) : Prop :=
  ∃ r ∈ opcodeRows, r.mnemonic = i.mnemonic ∧ encode i &&& r.mask = r.value

theorem formatA_major (m : BitVec 4) (nnn : Addr12) :
    formatA m nnn &&& (0xF#4 ++ 0x000#12 : BitVec 16) = (m ++ 0x000#12 : BitVec 16) := by
  unfold formatA; rw [BitVec.and_append]; congr 1
  · exact BitVec.and_allOnes
  · exact BitVec.and_zero

theorem formatXK_major (m : BitVec 4) (x : Reg) (kk : Byte) :
    formatXK m x kk &&& (0xF#4 ++ 0x0#4 ++ 0x00#8 : BitVec 16) = (m ++ 0x0#4 ++ 0x00#8 : BitVec 16) := by
  unfold formatXK; rw [BitVec.and_append, BitVec.and_append]; congr 1
  · congr 1
    · exact BitVec.and_allOnes
    · exact BitVec.and_zero
  · exact BitVec.and_zero

theorem formatXK_minor (m : BitVec 4) (x : Reg) (kk : Byte) :
    formatXK m x kk &&& (0xF#4 ++ 0x0#4 ++ 0xFF#8 : BitVec 16) = (m ++ 0x0#4 ++ kk : BitVec 16) := by
  unfold formatXK; rw [BitVec.and_append, BitVec.and_append]; congr 1
  · congr 1
    · exact BitVec.and_allOnes
    · exact BitVec.and_zero
  · exact BitVec.and_allOnes

theorem formatXY_minor (m : BitVec 4) (x y : Reg) (n : BitVec 4) :
    formatXY m x y n &&& (0xF#4 ++ 0x0#4 ++ 0x0#4 ++ 0xF#4 : BitVec 16) = (m ++ 0x0#4 ++ 0x0#4 ++ n : BitVec 16) := by
  unfold formatXY; rw [BitVec.and_append, BitVec.and_append, BitVec.and_append]; congr 1
  · congr 1
    · congr 1
      · exact BitVec.and_allOnes
      · exact BitVec.and_zero
    · exact BitVec.and_zero
  · exact BitVec.and_allOnes

theorem formatXY_major (m : BitVec 4) (x y : Reg) (n : BitVec 4) :
    formatXY m x y n &&& (0xF#4 ++ 0x0#4 ++ 0x0#4 ++ 0x0#4 : BitVec 16) = (m ++ 0x0#4 ++ 0x0#4 ++ 0x0#4 : BitVec 16) := by
  unfold formatXY; rw [BitVec.and_append, BitVec.and_append, BitVec.and_append]; congr 1
  · congr 1
    · congr 1
      · exact BitVec.and_allOnes
      · exact BitVec.and_zero
    · exact BitVec.and_zero
  · exact BitVec.and_zero

theorem cls : Statement (.cls) :=
  ⟨⟨"CLS", 0xFFFF#16, 0x00E0#16⟩, by decide, rfl, by decide⟩

theorem ret : Statement (.ret) :=
  ⟨⟨"RET", 0xFFFF#16, 0x00EE#16⟩, by decide, rfl, by decide⟩

theorem jp (a : Addr12) : Statement (.jp a) :=
  ⟨⟨"JP", 0xF000#16, 0x1000#16⟩, by decide, rfl, formatA_major _ _⟩

theorem call (a : Addr12) : Statement (.call a) :=
  ⟨⟨"CALL", 0xF000#16, 0x2000#16⟩, by decide, rfl, formatA_major _ _⟩

theorem seImm (a : Reg) (b : Byte) : Statement (.seImm a b) :=
  ⟨⟨"SE_IMM", 0xF000#16, 0x3000#16⟩, by decide, rfl, formatXK_major _ _ _⟩

theorem sneImm (a : Reg) (b : Byte) : Statement (.sneImm a b) :=
  ⟨⟨"SNE_IMM", 0xF000#16, 0x4000#16⟩, by decide, rfl, formatXK_major _ _ _⟩

theorem seReg (a : Reg) (b : Reg) : Statement (.seReg a b) :=
  ⟨⟨"SE_REG", 0xF00F#16, 0x5000#16⟩, by decide, rfl, formatXY_minor _ _ _ _⟩

theorem ldImm (a : Reg) (b : Byte) : Statement (.ldImm a b) :=
  ⟨⟨"LD_IMM", 0xF000#16, 0x6000#16⟩, by decide, rfl, formatXK_major _ _ _⟩

theorem addImm (a : Reg) (b : Byte) : Statement (.addImm a b) :=
  ⟨⟨"ADD_IMM", 0xF000#16, 0x7000#16⟩, by decide, rfl, formatXK_major _ _ _⟩

theorem ldReg (a : Reg) (b : Reg) : Statement (.ldReg a b) :=
  ⟨⟨"LD_REG", 0xF00F#16, 0x8000#16⟩, by decide, rfl, formatXY_minor _ _ _ _⟩

theorem orReg (a : Reg) (b : Reg) : Statement (.orReg a b) :=
  ⟨⟨"OR", 0xF00F#16, 0x8001#16⟩, by decide, rfl, formatXY_minor _ _ _ _⟩

theorem andReg (a : Reg) (b : Reg) : Statement (.andReg a b) :=
  ⟨⟨"AND", 0xF00F#16, 0x8002#16⟩, by decide, rfl, formatXY_minor _ _ _ _⟩

theorem xorReg (a : Reg) (b : Reg) : Statement (.xorReg a b) :=
  ⟨⟨"XOR", 0xF00F#16, 0x8003#16⟩, by decide, rfl, formatXY_minor _ _ _ _⟩

theorem addReg (a : Reg) (b : Reg) : Statement (.addReg a b) :=
  ⟨⟨"ADD_REG", 0xF00F#16, 0x8004#16⟩, by decide, rfl, formatXY_minor _ _ _ _⟩

theorem sub (a : Reg) (b : Reg) : Statement (.sub a b) :=
  ⟨⟨"SUB", 0xF00F#16, 0x8005#16⟩, by decide, rfl, formatXY_minor _ _ _ _⟩

theorem shr (a : Reg) (b : Reg) : Statement (.shr a b) :=
  ⟨⟨"SHR", 0xF00F#16, 0x8006#16⟩, by decide, rfl, formatXY_minor _ _ _ _⟩

theorem subn (a : Reg) (b : Reg) : Statement (.subn a b) :=
  ⟨⟨"SUBN", 0xF00F#16, 0x8007#16⟩, by decide, rfl, formatXY_minor _ _ _ _⟩

theorem shl (a : Reg) (b : Reg) : Statement (.shl a b) :=
  ⟨⟨"SHL", 0xF00F#16, 0x800E#16⟩, by decide, rfl, formatXY_minor _ _ _ _⟩

theorem sneReg (a : Reg) (b : Reg) : Statement (.sneReg a b) :=
  ⟨⟨"SNE_REG", 0xF00F#16, 0x9000#16⟩, by decide, rfl, formatXY_minor _ _ _ _⟩

theorem ldI (a : Addr12) : Statement (.ldI a) :=
  ⟨⟨"LD_I", 0xF000#16, 0xA000#16⟩, by decide, rfl, formatA_major _ _⟩

theorem jpV0 (a : Addr12) : Statement (.jpV0 a) :=
  ⟨⟨"JP_V0", 0xF000#16, 0xB000#16⟩, by decide, rfl, formatA_major _ _⟩

theorem rnd (a : Reg) (b : Byte) : Statement (.rnd a b) :=
  ⟨⟨"RND", 0xF000#16, 0xC000#16⟩, by decide, rfl, formatXK_major _ _ _⟩

theorem drw (a : Reg) (b : Reg) (c : Nat) : Statement (.drw a b c) :=
  ⟨⟨"DRW", 0xF000#16, 0xD000#16⟩, by decide, rfl, formatXY_major _ _ _ _⟩

theorem skp (a : Reg) : Statement (.skp a) :=
  ⟨⟨"SKP", 0xF0FF#16, 0xE09E#16⟩, by decide, rfl, formatXK_minor _ _ _⟩

theorem sknp (a : Reg) : Statement (.sknp a) :=
  ⟨⟨"SKNP", 0xF0FF#16, 0xE0A1#16⟩, by decide, rfl, formatXK_minor _ _ _⟩

theorem ldVxDt (a : Reg) : Statement (.ldVxDt a) :=
  ⟨⟨"LD_VX_DT", 0xF0FF#16, 0xF007#16⟩, by decide, rfl, formatXK_minor _ _ _⟩

theorem ldVxK (a : Reg) : Statement (.ldVxK a) :=
  ⟨⟨"LD_VX_K", 0xF0FF#16, 0xF00A#16⟩, by decide, rfl, formatXK_minor _ _ _⟩

theorem ldDtVx (a : Reg) : Statement (.ldDtVx a) :=
  ⟨⟨"LD_DT_VX", 0xF0FF#16, 0xF015#16⟩, by decide, rfl, formatXK_minor _ _ _⟩

theorem ldStVx (a : Reg) : Statement (.ldStVx a) :=
  ⟨⟨"LD_ST_VX", 0xF0FF#16, 0xF018#16⟩, by decide, rfl, formatXK_minor _ _ _⟩

theorem addI (a : Reg) : Statement (.addI a) :=
  ⟨⟨"ADD_I", 0xF0FF#16, 0xF01E#16⟩, by decide, rfl, formatXK_minor _ _ _⟩

theorem ldF (a : Reg) : Statement (.ldF a) :=
  ⟨⟨"LD_F", 0xF0FF#16, 0xF029#16⟩, by decide, rfl, formatXK_minor _ _ _⟩

theorem ldB (a : Reg) : Statement (.ldB a) :=
  ⟨⟨"LD_B", 0xF0FF#16, 0xF033#16⟩, by decide, rfl, formatXK_minor _ _ _⟩

theorem stRegs (a : Reg) : Statement (.stRegs a) :=
  ⟨⟨"ST_REGS", 0xF0FF#16, 0xF055#16⟩, by decide, rfl, formatXK_minor _ _ _⟩

theorem ldRegs (a : Reg) : Statement (.ldRegs a) :=
  ⟨⟨"LD_REGS", 0xF0FF#16, 0xF065#16⟩, by decide, rfl, formatXK_minor _ _ _⟩

end Sys2Proof.Laws.FixedBits
end

