-- ==== Sys2Proof/Laws/Screen.lean ====
section
/-! SUPPORT. The framebuffer: one pixel after one inversion, after a row, after a sprite; and the collision flag. -/

namespace Sys2Proof.Machine

theorem Framebuffer.pixel_in (fb : Framebuffer) {r c : Nat} (hr : r < 32) (hc : c < 64) :
    fb.pixel r c = fb[r][c] := by simp [Framebuffer.pixel, hr, hc]

theorem Framebuffer.pixel_out (fb : Framebuffer) {r c : Nat} (h : ¬ (r < 32 ∧ c < 64)) : fb.pixel r c = false := by
  simp only [Framebuffer.pixel, h, dite_false]

/-- Two framebuffers with the same pixels are equal. -/
theorem Framebuffer.ext_pixel {a b : Framebuffer} (h : ∀ r c, a.pixel r c = b.pixel r c) : a = b := by
  apply Vector.ext; intro r hr
  apply Vector.ext; intro c hc
  simpa [Framebuffer.pixel_in, hr, hc] using h r c

/-- One inversion: the pixel itself is inverted, every other stays. -/
theorem Framebuffer.pixel_invert (fb : Framebuffer) (r c r' c' : Nat) (h : r < 32 ∧ c < 64) :
    (fb.invert r c).pixel r' c' = if r' = r ∧ c' = c then !fb.pixel r c else fb.pixel r' c' := by
  by_cases h' : r' < 32 ∧ c' < 64
  · rw [Framebuffer.pixel_in _ h'.1 h'.2, Framebuffer.pixel_in _ h'.1 h'.2, Framebuffer.pixel_in _ h.1 h.2]
    unfold Framebuffer.invert
    simp only [h, and_self, dite_true, Vector.getElem_set]
    by_cases hr : r = r'
    · subst hr
      by_cases hc : c = c'
      · subst hc; simp
      · simp [hc, Ne.symm hc]
    · simp [hr, Ne.symm hr]
  · have hne : ¬ (r' = r ∧ c' = c) := by rintro ⟨rfl, rfl⟩; exact h' h
    rw [Framebuffer.pixel_out _ h', Framebuffer.pixel_out _ h']; simp [hne]

/-- The first `k` columns of a row that lies in the grid: each covered pixel with a 1 bit is inverted, and the flag
gathers the set ones among them. -/
theorem drawRow_spec (row : Byte) (r cx k : Nat) (p : Framebuffer × Bool) (hr : r < 32) (hk : cx + k ≤ 64) :
    (∀ r' c', (drawRow row r cx k p).1.pixel r' c' =
      (p.1.pixel r' c' ^^ (decide (r' = r ∧ cx ≤ c' ∧ c' < cx + k) && spriteBit row (c' - cx)))) ∧
    ((drawRow row r cx k p).2 = true ↔
      p.2 = true ∨ ∃ c, c < k ∧ spriteBit row c = true ∧ p.1.pixel r (cx + c) = true) := by
  induction k with
  | zero =>
    refine ⟨fun r' c' => ?_, by simp [drawRow]⟩
    have h : ¬ (r' = r ∧ cx ≤ c' ∧ c' < cx + 0) := by omega
    rw [decide_eq_false h, Bool.false_and, Bool.xor_false]; rfl
  | succ k ih =>
    obtain ⟨ih1, ih2⟩ := ih (by omega)
    have hpix : (drawRow row r cx k p).1.pixel r (cx + k) = p.1.pixel r (cx + k) := by
      rw [ih1]
      have : ¬ (r = r ∧ cx ≤ cx + k ∧ cx + k < cx + k) := by omega
      simp
    unfold drawRow drawPixel
    by_cases hb : spriteBit row k = true
    · simp only [hb, if_true]
      constructor
      · intro r' c'
        rw [Framebuffer.pixel_invert _ _ _ _ _ ⟨hr, by omega⟩, hpix, ih1]
        by_cases heq : r' = r ∧ c' = cx + k
        · obtain ⟨rfl, rfl⟩ := heq
          simp [hb]
        · have hiff : (r' = r ∧ cx ≤ c' ∧ c' < cx + k) ↔ (r' = r ∧ cx ≤ c' ∧ c' < cx + (k + 1)) := by omega
          simp only [heq, if_false, hiff]
      · simp only [Bool.or_eq_true, ih2, hpix]
        constructor
        · rintro ((h | ⟨c, h1, h2, h3⟩) | h)
          · exact .inl h
          · exact .inr ⟨c, by omega, h2, h3⟩
          · exact .inr ⟨k, by omega, hb, h⟩
        · rintro (h | ⟨c, h1, h2, h3⟩)
          · exact .inl (.inl h)
          · rcases Nat.lt_succ_iff_lt_or_eq.1 h1 with h | rfl
            · exact .inl (.inr ⟨c, h, h2, h3⟩)
            · exact .inr h3
    · simp only [hb]
      constructor
      · intro r' c'
        simp only [Bool.false_eq_true, if_false]
        rw [ih1]
        by_cases heq : r' = r ∧ c' = cx + k
        · obtain ⟨rfl, rfl⟩ := heq
          simp [hb]
        · have hiff : (r' = r ∧ cx ≤ c' ∧ c' < cx + k) ↔ (r' = r ∧ cx ≤ c' ∧ c' < cx + (k + 1)) := by omega
          simp only [hiff]
      · simp only [Bool.false_eq_true, if_false, ih2]
        constructor
        · rintro (h | ⟨c, h1, h2, h3⟩)
          · exact .inl h
          · exact .inr ⟨c, by omega, h2, h3⟩
        · rintro (h | ⟨c, h1, h2, h3⟩)
          · exact .inl h
          · rcases Nat.lt_succ_iff_lt_or_eq.1 h1 with h | rfl
            · exact .inr ⟨c, h, h2, h3⟩
            · exact absurd h2 hb

/-- The first `k` rows of a sprite whose rectangle lies in the grid. -/
theorem drawRows_spec (m : Memory) (base cx cy k : Nat) (p : Framebuffer × Bool) (hr : cy + k ≤ 32) (hc : cx + 8 ≤ 64) :
    (∀ r' c', (drawRows m base cx cy k p).1.pixel r' c' =
      (p.1.pixel r' c' ^^ (decide (cy ≤ r' ∧ r' < cy + k ∧ cx ≤ c' ∧ c' < cx + 8) &&
        spriteBit (m.read (base + (r' - cy))) (c' - cx)))) ∧
    ((drawRows m base cx cy k p).2 = true ↔ p.2 = true ∨
      ∃ r c, r < k ∧ c < 8 ∧ spriteBit (m.read (base + r)) c = true ∧ p.1.pixel (cy + r) (cx + c) = true) := by
  induction k with
  | zero =>
    refine ⟨fun r' c' => ?_, by simp [drawRows]⟩
    have h : ¬ (cy ≤ r' ∧ r' < cy + 0 ∧ cx ≤ c' ∧ c' < cx + 8) := by omega
    rw [decide_eq_false h, Bool.false_and, Bool.xor_false]; rfl
  | succ k ih =>
    obtain ⟨ih1, ih2⟩ := ih (by omega)
    obtain ⟨row1, row2⟩ := drawRow_spec (m.read (base + k)) (cy + k) cx 8 (drawRows m base cx cy k p) (by omega) hc
    have hpix : ∀ c, (drawRows m base cx cy k p).1.pixel (cy + k) c = p.1.pixel (cy + k) c := by
      intro c; rw [ih1]
      have : ¬ (cy ≤ cy + k ∧ cy + k < cy + k ∧ cx ≤ c ∧ c < cx + 8) := by omega
      simp
    unfold drawRows
    constructor
    · intro r' c'
      rw [row1, ih1]
      by_cases heq : r' = cy + k
      · subst heq
        have h1 : ¬ (cy ≤ cy + k ∧ cy + k < cy + k ∧ cx ≤ c' ∧ c' < cx + 8) := by omega
        have h2 : (cy ≤ cy + k ∧ cy + k < cy + (k + 1) ∧ cx ≤ c' ∧ c' < cx + 8) ↔ (cx ≤ c' ∧ c' < cx + 8) := by omega
        have h3 : cy + k - cy = k := by omega
        simp
      · have hiff : (cy ≤ r' ∧ r' < cy + k ∧ cx ≤ c' ∧ c' < cx + 8) ↔
            (cy ≤ r' ∧ r' < cy + (k + 1) ∧ cx ≤ c' ∧ c' < cx + 8) := by omega
        have hno : ¬ (r' = cy + k ∧ cx ≤ c' ∧ c' < cx + 8) := by omega
        rw [decide_eq_false hno, Bool.false_and, Bool.xor_false, decide_eq_decide.2 hiff]
    · rw [row2, ih2]
      simp only [hpix]
      constructor
      · rintro ((h | ⟨r, c, h1, h2, h3, h4⟩) | ⟨c, h2, h3, h4⟩)
        · exact .inl h
        · exact .inr ⟨r, c, by omega, h2, h3, h4⟩
        · exact .inr ⟨k, c, by omega, h2, h3, h4⟩
      · rintro (h | ⟨r, c, h1, h2, h3, h4⟩)
        · exact .inl (.inl h)
        · rcases Nat.lt_succ_iff_lt_or_eq.1 h1 with h | rfl
          · exact .inl (.inr ⟨r, c, h, h2, h3, h4⟩)
          · exact .inr ⟨c, h2, h3, h4⟩

theorem pixel_clearScreen (r c : Nat) : clearScreen.pixel r c = false := by
  by_cases h : r < 32 ∧ c < 64
  · rw [Framebuffer.pixel_in _ h.1 h.2]; simp [clearScreen]
  · exact Framebuffer.pixel_out _ h

/-- No fault exactly when nothing is drawn or the whole rectangle lies in the grid. -/
theorem rectFault_eq_none (cx cy n : Nat) : rectFault cx cy n = none ↔ (n = 0 ∨ (cx ≤ 56 ∧ cy + n ≤ 32)) := by
  unfold rectFault; split
  · simp; omega
  · simp; omega

theorem rectFault_eq_some (cx cy n : Nat) (f : Fault) :
    rectFault cx cy n = some f ↔ (1 ≤ n ∧ (56 < cx ∨ 32 < cy + n) ∧ f = .drawOutOfRange) := by
  unfold rectFault; split
  · rename_i h
    simp only [Option.some.injEq]
    exact ⟨fun e => ⟨h.1, by omega, e.symm⟩, fun e => e.2.2.symm⟩
  · simp only [reduceCtorEq, false_iff]; omega

end Sys2Proof.Machine
end

