-- ==== Sys2Proof/Laws/State.lean ====
section
/-! SUPPORT. The small lemmas of the state: one per field per update, and reading registers. -/

namespace Sys2Proof.Machine

/-! ### setReg -/

@[simp] theorem State.setReg_v (s : State) (x : Reg) (b : Byte) : (s.setReg x b).v = s.v.set x.val b := rfl
@[simp] theorem State.setReg_i (s : State) (x : Reg) (b : Byte) : (s.setReg x b).i = s.i := rfl
@[simp] theorem State.setReg_pc (s : State) (x : Reg) (b : Byte) : (s.setReg x b).pc = s.pc := rfl
@[simp] theorem State.setReg_sp (s : State) (x : Reg) (b : Byte) : (s.setReg x b).sp = s.sp := rfl
@[simp] theorem State.setReg_stack (s : State) (x : Reg) (b : Byte) : (s.setReg x b).stack = s.stack := rfl
@[simp] theorem State.setReg_dt (s : State) (x : Reg) (b : Byte) : (s.setReg x b).dt = s.dt := rfl
@[simp] theorem State.setReg_st (s : State) (x : Reg) (b : Byte) : (s.setReg x b).st = s.st := rfl
@[simp] theorem State.setReg_mem (s : State) (x : Reg) (b : Byte) : (s.setReg x b).mem = s.mem := rfl
@[simp] theorem State.setReg_fb (s : State) (x : Reg) (b : Byte) : (s.setReg x b).fb = s.fb := rfl
@[simp] theorem State.setReg_keys (s : State) (x : Reg) (b : Byte) : (s.setReg x b).keys = s.keys := rfl
@[simp] theorem State.setReg_redraw (s : State) (x : Reg) (b : Byte) : (s.setReg x b).redraw = s.redraw := rfl
@[simp] theorem State.setReg_rndCount (s : State) (x : Reg) (b : Byte) : (s.setReg x b).rndCount = s.rndCount := rfl

/-! ### setI -/

@[simp] theorem State.setI_v (s : State) (w : Word) : (s.setI w).v = s.v := rfl
@[simp] theorem State.setI_i (s : State) (w : Word) : (s.setI w).i = w := rfl
@[simp] theorem State.setI_pc (s : State) (w : Word) : (s.setI w).pc = s.pc := rfl
@[simp] theorem State.setI_sp (s : State) (w : Word) : (s.setI w).sp = s.sp := rfl
@[simp] theorem State.setI_stack (s : State) (w : Word) : (s.setI w).stack = s.stack := rfl
@[simp] theorem State.setI_dt (s : State) (w : Word) : (s.setI w).dt = s.dt := rfl
@[simp] theorem State.setI_st (s : State) (w : Word) : (s.setI w).st = s.st := rfl
@[simp] theorem State.setI_mem (s : State) (w : Word) : (s.setI w).mem = s.mem := rfl
@[simp] theorem State.setI_fb (s : State) (w : Word) : (s.setI w).fb = s.fb := rfl
@[simp] theorem State.setI_keys (s : State) (w : Word) : (s.setI w).keys = s.keys := rfl
@[simp] theorem State.setI_redraw (s : State) (w : Word) : (s.setI w).redraw = s.redraw := rfl
@[simp] theorem State.setI_rndCount (s : State) (w : Word) : (s.setI w).rndCount = s.rndCount := rfl

/-! ### setPc -/

@[simp] theorem State.setPc_v (s : State) (w : Word) : (s.setPc w).v = s.v := rfl
@[simp] theorem State.setPc_i (s : State) (w : Word) : (s.setPc w).i = s.i := rfl
@[simp] theorem State.setPc_pc (s : State) (w : Word) : (s.setPc w).pc = w := rfl
@[simp] theorem State.setPc_sp (s : State) (w : Word) : (s.setPc w).sp = s.sp := rfl
@[simp] theorem State.setPc_stack (s : State) (w : Word) : (s.setPc w).stack = s.stack := rfl
@[simp] theorem State.setPc_dt (s : State) (w : Word) : (s.setPc w).dt = s.dt := rfl
@[simp] theorem State.setPc_st (s : State) (w : Word) : (s.setPc w).st = s.st := rfl
@[simp] theorem State.setPc_mem (s : State) (w : Word) : (s.setPc w).mem = s.mem := rfl
@[simp] theorem State.setPc_fb (s : State) (w : Word) : (s.setPc w).fb = s.fb := rfl
@[simp] theorem State.setPc_keys (s : State) (w : Word) : (s.setPc w).keys = s.keys := rfl
@[simp] theorem State.setPc_redraw (s : State) (w : Word) : (s.setPc w).redraw = s.redraw := rfl
@[simp] theorem State.setPc_rndCount (s : State) (w : Word) : (s.setPc w).rndCount = s.rndCount := rfl

/-! ### advance -/

@[simp] theorem State.advance_v (s : State) : s.advance.v = s.v := rfl
@[simp] theorem State.advance_i (s : State) : s.advance.i = s.i := rfl
@[simp] theorem State.advance_pc (s : State) : s.advance.pc = s.pc + 2#16 := rfl
@[simp] theorem State.advance_sp (s : State) : s.advance.sp = s.sp := rfl
@[simp] theorem State.advance_stack (s : State) : s.advance.stack = s.stack := rfl
@[simp] theorem State.advance_dt (s : State) : s.advance.dt = s.dt := rfl
@[simp] theorem State.advance_st (s : State) : s.advance.st = s.st := rfl
@[simp] theorem State.advance_mem (s : State) : s.advance.mem = s.mem := rfl
@[simp] theorem State.advance_fb (s : State) : s.advance.fb = s.fb := rfl
@[simp] theorem State.advance_keys (s : State) : s.advance.keys = s.keys := rfl
@[simp] theorem State.advance_redraw (s : State) : s.advance.redraw = s.redraw := rfl
@[simp] theorem State.advance_rndCount (s : State) : s.advance.rndCount = s.rndCount := rfl

/-! ### skipIf -/

@[simp] theorem State.skipIf_v (s : State) (c : Bool) : (s.skipIf c).v = s.v := rfl
@[simp] theorem State.skipIf_i (s : State) (c : Bool) : (s.skipIf c).i = s.i := rfl
@[simp] theorem State.skipIf_pc (s : State) (c : Bool) : (s.skipIf c).pc = s.pc + if c then 4#16 else 2#16 := rfl
@[simp] theorem State.skipIf_sp (s : State) (c : Bool) : (s.skipIf c).sp = s.sp := rfl
@[simp] theorem State.skipIf_stack (s : State) (c : Bool) : (s.skipIf c).stack = s.stack := rfl
@[simp] theorem State.skipIf_dt (s : State) (c : Bool) : (s.skipIf c).dt = s.dt := rfl
@[simp] theorem State.skipIf_st (s : State) (c : Bool) : (s.skipIf c).st = s.st := rfl
@[simp] theorem State.skipIf_mem (s : State) (c : Bool) : (s.skipIf c).mem = s.mem := rfl
@[simp] theorem State.skipIf_fb (s : State) (c : Bool) : (s.skipIf c).fb = s.fb := rfl
@[simp] theorem State.skipIf_keys (s : State) (c : Bool) : (s.skipIf c).keys = s.keys := rfl
@[simp] theorem State.skipIf_redraw (s : State) (c : Bool) : (s.skipIf c).redraw = s.redraw := rfl
@[simp] theorem State.skipIf_rndCount (s : State) (c : Bool) : (s.skipIf c).rndCount = s.rndCount := rfl

/-! ### writeFlagged -/

@[simp] theorem State.writeFlagged_v (s : State) (x : Reg) (f : Bool) (b : Byte) : (s.writeFlagged x f b).v = (s.v.set 15 (flagByte f)).set x.val b := rfl
@[simp] theorem State.writeFlagged_i (s : State) (x : Reg) (f : Bool) (b : Byte) : (s.writeFlagged x f b).i = s.i := rfl
@[simp] theorem State.writeFlagged_pc (s : State) (x : Reg) (f : Bool) (b : Byte) : (s.writeFlagged x f b).pc = s.pc := rfl
@[simp] theorem State.writeFlagged_sp (s : State) (x : Reg) (f : Bool) (b : Byte) : (s.writeFlagged x f b).sp = s.sp := rfl
@[simp] theorem State.writeFlagged_stack (s : State) (x : Reg) (f : Bool) (b : Byte) : (s.writeFlagged x f b).stack = s.stack := rfl
@[simp] theorem State.writeFlagged_dt (s : State) (x : Reg) (f : Bool) (b : Byte) : (s.writeFlagged x f b).dt = s.dt := rfl
@[simp] theorem State.writeFlagged_st (s : State) (x : Reg) (f : Bool) (b : Byte) : (s.writeFlagged x f b).st = s.st := rfl
@[simp] theorem State.writeFlagged_mem (s : State) (x : Reg) (f : Bool) (b : Byte) : (s.writeFlagged x f b).mem = s.mem := rfl
@[simp] theorem State.writeFlagged_fb (s : State) (x : Reg) (f : Bool) (b : Byte) : (s.writeFlagged x f b).fb = s.fb := rfl
@[simp] theorem State.writeFlagged_keys (s : State) (x : Reg) (f : Bool) (b : Byte) : (s.writeFlagged x f b).keys = s.keys := rfl
@[simp] theorem State.writeFlagged_redraw (s : State) (x : Reg) (f : Bool) (b : Byte) : (s.writeFlagged x f b).redraw = s.redraw := rfl
@[simp] theorem State.writeFlagged_rndCount (s : State) (x : Reg) (f : Bool) (b : Byte) : (s.writeFlagged x f b).rndCount = s.rndCount := rfl

/-! ### tick -/

@[simp] theorem State.tick_v (s : State) : s.tick.v = s.v := rfl
@[simp] theorem State.tick_i (s : State) : s.tick.i = s.i := rfl
@[simp] theorem State.tick_pc (s : State) : s.tick.pc = s.pc := rfl
@[simp] theorem State.tick_sp (s : State) : s.tick.sp = s.sp := rfl
@[simp] theorem State.tick_stack (s : State) : s.tick.stack = s.stack := rfl
@[simp] theorem State.tick_dt (s : State) : s.tick.dt = countDown s.dt := rfl
@[simp] theorem State.tick_st (s : State) : s.tick.st = countDown s.st := rfl
@[simp] theorem State.tick_mem (s : State) : s.tick.mem = s.mem := rfl
@[simp] theorem State.tick_fb (s : State) : s.tick.fb = s.fb := rfl
@[simp] theorem State.tick_keys (s : State) : s.tick.keys = s.keys := rfl
@[simp] theorem State.tick_redraw (s : State) : s.tick.redraw = s.redraw := rfl
@[simp] theorem State.tick_rndCount (s : State) : s.tick.rndCount = s.rndCount := rfl

/-! ### writeKeys -/

@[simp] theorem State.writeKeys_v (s : State) (k : Vector Bool 16) : (s.writeKeys k).v = s.v := rfl
@[simp] theorem State.writeKeys_i (s : State) (k : Vector Bool 16) : (s.writeKeys k).i = s.i := rfl
@[simp] theorem State.writeKeys_pc (s : State) (k : Vector Bool 16) : (s.writeKeys k).pc = s.pc := rfl
@[simp] theorem State.writeKeys_sp (s : State) (k : Vector Bool 16) : (s.writeKeys k).sp = s.sp := rfl
@[simp] theorem State.writeKeys_stack (s : State) (k : Vector Bool 16) : (s.writeKeys k).stack = s.stack := rfl
@[simp] theorem State.writeKeys_dt (s : State) (k : Vector Bool 16) : (s.writeKeys k).dt = s.dt := rfl
@[simp] theorem State.writeKeys_st (s : State) (k : Vector Bool 16) : (s.writeKeys k).st = s.st := rfl
@[simp] theorem State.writeKeys_mem (s : State) (k : Vector Bool 16) : (s.writeKeys k).mem = s.mem := rfl
@[simp] theorem State.writeKeys_fb (s : State) (k : Vector Bool 16) : (s.writeKeys k).fb = s.fb := rfl
@[simp] theorem State.writeKeys_keys (s : State) (k : Vector Bool 16) : (s.writeKeys k).keys = k := rfl
@[simp] theorem State.writeKeys_redraw (s : State) (k : Vector Bool 16) : (s.writeKeys k).redraw = s.redraw := rfl
@[simp] theorem State.writeKeys_rndCount (s : State) (k : Vector Bool 16) : (s.writeKeys k).rndCount = s.rndCount := rfl

/-! ### clearRedraw -/

@[simp] theorem State.clearRedraw_v (s : State) : s.clearRedraw.v = s.v := rfl
@[simp] theorem State.clearRedraw_i (s : State) : s.clearRedraw.i = s.i := rfl
@[simp] theorem State.clearRedraw_pc (s : State) : s.clearRedraw.pc = s.pc := rfl
@[simp] theorem State.clearRedraw_sp (s : State) : s.clearRedraw.sp = s.sp := rfl
@[simp] theorem State.clearRedraw_stack (s : State) : s.clearRedraw.stack = s.stack := rfl
@[simp] theorem State.clearRedraw_dt (s : State) : s.clearRedraw.dt = s.dt := rfl
@[simp] theorem State.clearRedraw_st (s : State) : s.clearRedraw.st = s.st := rfl
@[simp] theorem State.clearRedraw_mem (s : State) : s.clearRedraw.mem = s.mem := rfl
@[simp] theorem State.clearRedraw_fb (s : State) : s.clearRedraw.fb = s.fb := rfl
@[simp] theorem State.clearRedraw_keys (s : State) : s.clearRedraw.keys = s.keys := rfl
@[simp] theorem State.clearRedraw_redraw (s : State) : s.clearRedraw.redraw = false := rfl
@[simp] theorem State.clearRedraw_rndCount (s : State) : s.clearRedraw.rndCount = s.rndCount := rfl

/-! ### Reading registers -/

/-- A register read after a register write. -/
theorem State.reg_setReg (s : State) (x r : Reg) (b : Byte) :
    (s.setReg x b).reg r = if r = x then b else s.reg r := by
  simp only [State.reg, State.setReg_v, Vector.getElem_set, Fin.ext_iff, eq_comm]

@[simp] theorem State.reg_setReg_same (s : State) (x : Reg) (b : Byte) : (s.setReg x b).reg x = b := by
  simp [State.reg_setReg]

theorem State.reg_setReg_ne (s : State) {x r : Reg} (b : Byte) (h : r ≠ x) : (s.setReg x b).reg r = s.reg r := by
  simp [State.reg_setReg, h]

/-- Registers after the flag and then the result are written: the result wins where x = F. -/
theorem State.reg_writeFlagged (s : State) (x r : Reg) (f : Bool) (b : Byte) :
    (s.writeFlagged x f b).reg r = if r = x then b else if r = 15 then flagByte f else s.reg r := by
  simp only [State.writeFlagged, State.reg_setReg, regVF]

/-- Equal register files read equally. -/
theorem State.reg_congr {s t : State} (h : t.v = s.v) (r : Reg) : t.reg r = s.reg r := by
  simp [State.reg, h]

@[simp] theorem State.reg_advance (s : State) (r : Reg) : s.advance.reg r = s.reg r := rfl
@[simp] theorem State.reg_setI (s : State) (w : Word) (r : Reg) : (s.setI w).reg r = s.reg r := rfl
@[simp] theorem State.reg_setPc (s : State) (w : Word) (r : Reg) : (s.setPc w).reg r = s.reg r := rfl
@[simp] theorem State.reg_skipIf (s : State) (c : Bool) (r : Reg) : (s.skipIf c).reg r = s.reg r := rfl
@[simp] theorem State.reg_tick (s : State) (r : Reg) : s.tick.reg r = s.reg r := rfl

end Sys2Proof.Machine
end

