-- ==== Sys2Proof/Tests/Slice0.lean ====
section
/-! SUPPORT. Tests: single steps from the vectors of 95_test_vectors.md (their ids stand in the comments), words written out
from the encodings of 30_encoding.md R78, the ill-formed term that WellFormed refuses, and a witness for the hypotheses of
each statement. -/

namespace Sys2Proof.Tests

open Sys2Proof.Machine

/-! ### Helpers -/

/-- The next state, if there is one. -/
def nextOf : Result → Option State
  | .next t => some t
  | _ => none

/-- The fault, if there is one. -/
def faultOf : Result → Option Fault
  | .fault f => some f
  | _ => none

/-- One step of the word `w` from the reset state changed by `f`. -/
def run1 (w : Nat) (f : State → State) : Result := step ((f State.reset).withFetchWord 16 w)

/-- Bytes in memory. -/
def bytesAt (s : State) (a : Nat) (bs : List Byte) : State := { s with mem := s.mem.writeBytes a bs }

/-- The stack holding the given entries, oldest first. -/
def withStack (s : State) (n : Fin 17) (a b : Word) : State := { s with sp := n, stack := (s.stack.set 0 a).set 1 b }

/-- V1 and V2 set, the operands of most vectors. -/
def v12 (a b : Byte) (s : State) : State := (s.setReg 1 a).setReg 2 b

/-- A key pressed. -/
def press (s : State) (k : Fin 16) : State := { s with keys := s.keys.set k.val true }

/-- The start of vectors DS1 to DS8: the two-row sprite at 0x300, V0 and V1 as coordinates. -/
def sprite (x y : Byte) (s : State) : State :=
  (((bytesAt s 0x300 [0xC0#8, 0x80#8]).setI 0x300#16).setReg 0 x).setReg 1 y

/-! ### WellFormed refuses an ill-formed term -/

theorem test_wellFormed_refuses_sixteen_rows : (Instr.drw 0 0 16).wellFormed = false := by decide
theorem test_wellFormed_accepts_fifteen_rows : (Instr.drw 15 15 15).wellFormed = true := by decide

/-! ### A word of every constructor, from R78 -/

theorem test_decode_format_Z : decodeWord 0x00E0#16 = some .cls ∧ decodeWord 0x00EE#16 = some .ret := by decide

theorem test_decode_format_A : decodeWord 0x1234#16 = some (.jp 0x234#12) ∧ decodeWord 0x213F#16 = some (.call 0x13F#12) ∧
    decodeWord 0xA300#16 = some (.ldI 0x300#12) ∧ decodeWord 0xBFFF#16 = some (.jpV0 0xFFF#12) := by decide

theorem test_decode_format_XK : decodeWord 0x332A#16 = some (.seImm 3 0x2A#8) ∧
    decodeWord 0x432B#16 = some (.sneImm 3 0x2B#8) ∧ decodeWord 0x6AFF#16 = some (.ldImm 10 0xFF#8) ∧
    decodeWord 0x7103#16 = some (.addImm 1 0x03#8) ∧ decodeWord 0xC30F#16 = some (.rnd 3 0x0F#8) := by decide

theorem test_decode_format_XY_moves : decodeWord 0x5120#16 = some (.seReg 1 2) ∧ decodeWord 0x9120#16 = some (.sneReg 1 2) ∧
    decodeWord 0x8120#16 = some (.ldReg 1 2) ∧ decodeWord 0x8121#16 = some (.orReg 1 2) ∧
    decodeWord 0x8122#16 = some (.andReg 1 2) ∧ decodeWord 0x8123#16 = some (.xorReg 1 2) := by decide

theorem test_decode_format_XY_flags : decodeWord 0x8AB4#16 = some (.addReg 10 11) ∧ decodeWord 0x8AB5#16 = some (.sub 10 11) ∧
    decodeWord 0x8126#16 = some (.shr 1 2) ∧ decodeWord 0x8127#16 = some (.subn 1 2) ∧
    decodeWord 0x812E#16 = some (.shl 1 2) := by decide

theorem test_decode_format_XYN : decodeWord 0xD7A5#16 = some (.drw 7 10 5) := by decide

theorem test_decode_format_XF_keys_timers : decodeWord 0xE59E#16 = some (.skp 5) ∧ decodeWord 0xE5A1#16 = some (.sknp 5) ∧
    decodeWord 0xF207#16 = some (.ldVxDt 2) ∧ decodeWord 0xF40A#16 = some (.ldVxK 4) ∧
    decodeWord 0xF315#16 = some (.ldDtVx 3) ∧ decodeWord 0xF318#16 = some (.ldStVx 3) := by decide

theorem test_decode_format_XF_index : decodeWord 0xF21E#16 = some (.addI 2) ∧ decodeWord 0xF229#16 = some (.ldF 2) ∧
    decodeWord 0xF333#16 = some (.ldB 3) ∧ decodeWord 0xF255#16 = some (.stRegs 2) ∧
    decodeWord 0xFE65#16 = some (.ldRegs 14) := by decide

-- DE3 to DE6, DE8, DE10, DE12, DE13, DE15 to DE17.
theorem test_decode_refuses : [0x0000#16, 0x00E1#16, 0x01E0#16, 0x0123#16, 0x5121#16, 0x8128#16, 0x812F#16, 0x9121#16,
    0xE19F#16, 0xF100#16, 0xF175#16].all (fun w => (decodeWord w).isNone) = true := by decide

theorem test_decode_bytes_high_first : decode [0x6A#8, 0xFF#8, 0x12#8] = .ok (.ldImm 10 0xFF#8, [0x12#8]) := by decide
theorem test_decode_bytes_too_short : decode [0x6A#8] = .error .tooShort := by decide
theorem test_decode_table_word : decodeTableWord 16 0xD7A5 = some (.drw 7 10 5) := by decide

/-! ### Control transfer -/

-- CF3.
theorem test_jp : (nextOf (run1 0x1FFF id)).map (fun t => t.pc) = some 0xFFF#16 := by decide

-- CF4.
theorem test_jpV0 : (nextOf (run1 0xBFFF (·.setReg 0 0xFF#8))).map (fun t => t.pc) = some 0x10FE#16 := by decide

-- CF14.
theorem test_call : (nextOf (run1 0x2ABC (fun s => { s with sp := 15 }))).map (fun t => (t.stack[15], t.sp, t.pc)) = some (0x202#16, 16, 0xABC#16) := by decide

-- CF15.
theorem test_call_full : faultOf (run1 0x2ABC (fun s => { s with sp := 16 })) = some .stackOverflow := by decide

-- CF17.
theorem test_ret : (nextOf (run1 0x00EE (fun s => withStack s 2 0x300#16 0x456#16))).map (fun t => (t.sp, t.pc)) = some (1, 0x456#16) := by decide

-- CF16.
theorem test_ret_empty : faultOf (run1 0x00EE id) = some .stackUnderflow := by decide

-- CF5.
theorem test_seImm : (nextOf (run1 0x332A (·.setReg 3 0x2A#8))).map (fun t => t.pc) = some 0x204#16 := by decide

-- CF7.
theorem test_sneImm : (nextOf (run1 0x432A (·.setReg 3 0x2A#8))).map (fun t => t.pc) = some 0x202#16 := by decide

-- CF10.
theorem test_seReg : (nextOf (run1 0x5120 (v12 7#8 8#8))).map (fun t => t.pc) = some 0x202#16 := by decide

-- CF11.
theorem test_sneReg : (nextOf (run1 0x9120 (v12 7#8 8#8))).map (fun t => t.pc) = some 0x204#16 := by decide


/-! ### ALU -/

-- AL1.
theorem test_ldImm : (nextOf (run1 0x6AFF id)).map (fun t => (t.reg 10, t.pc)) = some (0xFF#8, 0x202#16) := by decide

-- AL2.
theorem test_addImm_no_carry : (nextOf (run1 0x7103 (·.setReg 1 0xFE#8))).map (fun t => (t.reg 1, t.reg 15)) = some (0x01#8, 0x00#8) := by decide

-- AL4.
theorem test_addImm_vf_plain : (nextOf (run1 0x7FFF (·.setReg 15 0x01#8))).map (fun t => t.reg 15) = some 0x00#8 := by decide

-- AL5.
theorem test_ldReg : (nextOf (run1 0x8120 (·.setReg 2 0x5A#8))).map (fun t => t.reg 1) = some 0x5A#8 := by decide

-- AL6.
theorem test_orReg : (nextOf (run1 0x8121 (fun s => (v12 0xF0#8 0x3C#8 s).setReg 15 1#8))).map (fun t => (t.reg 1, t.reg 15)) = some (0xFC#8, 0x01#8) := by decide

-- AL7.
theorem test_andReg : (nextOf (run1 0x8122 (v12 0xF0#8 0x3C#8))).map (fun t => t.reg 1) = some 0x30#8 := by decide

-- AL8.
theorem test_xorReg : (nextOf (run1 0x8123 (v12 0xF0#8 0x3C#8))).map (fun t => t.reg 1) = some 0xCC#8 := by decide

-- AL10, source S3.
theorem test_addReg : (nextOf (run1 0x8AB4 (fun s => (s.setReg 10 0xFF#8).setReg 11 0xCA#8))).map (fun t => (t.reg 10, t.reg 15)) = some (0xC9#8, 0x01#8) := by decide

-- AL14.
theorem test_addReg_into_vf : (nextOf (run1 0x8FB4 (fun s => (s.setReg 15 0xF0#8).setReg 11 0x20#8))).map (fun t => t.reg 15) = some 0x10#8 := by decide

-- AL16, source S4.
theorem test_sub : (nextOf (run1 0x8AB5 (fun s => (s.setReg 10 0xFF#8).setReg 11 0xCA#8))).map (fun t => (t.reg 10, t.reg 15)) = some (0x35#8, 0x01#8) := by decide

-- AL20.
theorem test_sub_old_vf : (nextOf (run1 0x8AF5 (fun s => (s.setReg 10 0x05#8).setReg 15 0x03#8))).map (fun t => (t.reg 10, t.reg 15)) = some (0x02#8, 0x01#8) := by decide

-- AL23.
theorem test_subn_less : (nextOf (run1 0x8127 (v12 0x30#8 0x10#8))).map (fun t => (t.reg 1, t.reg 15)) = some (0xE0#8, 0x00#8) := by decide

-- AL24.
theorem test_subn_equal : (nextOf (run1 0x8127 (v12 0x42#8 0x42#8))).map (fun t => (t.reg 1, t.reg 15)) = some (0x00#8, 0x00#8) := by decide

-- AL25.
theorem test_shr : (nextOf (run1 0x8126 (v12 0x05#8 0xAA#8))).map (fun t => (t.reg 1, t.reg 15, t.reg 2)) = some (0x02#8, 0x01#8, 0xAA#8) := by decide

-- AL28.
theorem test_shr_vf : (nextOf (run1 0x8F06 (·.setReg 15 0x05#8))).map (fun t => t.reg 15) = some 0x02#8 := by decide

-- AL29.
theorem test_shl : (nextOf (run1 0x812E (v12 0x81#8 0xAA#8))).map (fun t => (t.reg 1, t.reg 15, t.reg 2)) = some (0x02#8, 0x01#8, 0xAA#8) := by decide

-- AL31.
theorem test_shl_vf : (nextOf (run1 0x8F0E (·.setReg 15 0x81#8))).map (fun t => t.reg 15) = some 0x02#8 := by decide

-- AL33; the byte is free, so only the masked bits are known.
theorem test_rnd_masked : (nextOf (run1 0xC300 id)).map (fun t => t.reg 3) = some 0x00#8 :=
  congrArg some (BitVec.and_zero : Config.rnd 0 &&& 0#8 = 0#8)

-- R38, one byte an execution.
theorem test_rnd_consumes_one_byte : (nextOf (run1 0xC30F id)).map (fun t => (t.rndCount, t.pc)) = some (1, 0x202#16) := by decide


/-! ### Index and memory -/

-- IM1.
theorem test_ldI : (nextOf (run1 0xA300 (·.setI 0xFFFF#16))).map (fun t => t.i) = some 0x300#16 := by decide

-- IM2.
theorem test_addI : (nextOf (run1 0xF21E (fun s => (s.setI 0xFF0#16).setReg 2 0x20#8))).map (fun t => (t.i, t.reg 15)) = some (0x1010#16, 0x00#8) := by decide

-- IM3.
theorem test_addI_wraps : (nextOf (run1 0xF21E (fun s => (s.setI 0xFFFF#16).setReg 2 0x02#8))).map (fun t => t.i) = some 0x0001#16 := by decide

-- IM7.
theorem test_ldF : (nextOf (run1 0xF229 (·.setReg 2 0xFF#8))).map (fun t => t.i) = some 0x4FB#16 := by decide

-- IM11, highest legal base.
theorem test_ldB : (nextOf (run1 0xF333 (fun s => (s.setI 0xFFD#16).setReg 3 0x91#8))).map (fun t => (t.mem.read 0xFFD, t.mem.read 0xFFE, t.mem.read 0xFFF)) = some (1#8, 4#8, 5#8) := by decide

-- IM12.
theorem test_ldB_out_of_range : faultOf (run1 0xF333 (·.setI 0xFFE#16)) = some (.memoryOutOfRange 0x1000) := by decide

-- IM14.
theorem test_stRegs : (nextOf (run1 0xF255 (fun s => ((v12 0x22#8 0x33#8 s).setReg 0 0x11#8).setReg 3 0x44#8 |>.setI 0x400#16))).map (fun t => (t.mem.read 0x400, t.mem.read 0x402, t.mem.read 0x403, t.i)) = some (0x11#8, 0x33#8, 0x00#8, 0x400#16) := by decide

-- IM22.
theorem test_stRegs_over_font : (nextOf (run1 0xF055 (·.setReg 0 0xAB#8))).map (fun t => (t.mem.read 0, t.mem.read 1)) = some (0xAB#8, 0x90#8) := by decide

-- IM18.
theorem test_ldRegs : (nextOf (run1 0xF265 (fun s => (bytesAt (s.setReg 3 0x77#8) 0x300 [1#8, 4#8, 5#8, 9#8]).setI 0x300#16))).map (fun t => (t.reg 0, t.reg 1, t.reg 2, t.reg 3)) = some (1#8, 4#8, 5#8, 0x77#8) := by decide

-- IM20.
theorem test_ldRegs_out_of_range : faultOf (run1 0xF165 (·.setI 0xFFF#16)) = some (.memoryOutOfRange 0x1000) := by decide


/-! ### Display -/

-- DS1.
theorem test_cls : (nextOf (run1 0x00E0 (fun s => { s.setReg 15 7#8 with fb := s.fb.invert 5 5 }))).map (fun t => (t.fb.pixel 5 5, t.redraw, t.reg 15)) = some (false, false, 7#8) := by decide

-- DS7, last legal corner.
theorem test_drw_corner : (nextOf (run1 0xD012 (sprite 56#8 30#8))).map (fun t => (t.fb.pixel 30 56, t.fb.pixel 30 57, t.fb.pixel 31 56, t.fb.pixel 31 57, t.redraw)) = some (true, true, true, false, true) := by decide

-- DS4.
theorem test_drw_collision : (nextOf (run1 0xD012 (fun s => { sprite 4#8 2#8 s with fb := s.fb.invert 2 5 }))).map (fun t => (t.fb.pixel 2 4, t.fb.pixel 2 5, t.fb.pixel 3 4, t.reg 15)) = some (true, false, true, 1#8) := by decide

-- DS8.
theorem test_drw_blank_column_outside : faultOf (run1 0xD012 (sprite 57#8 0#8)) = some .drawOutOfRange := by decide

-- DS14.
theorem test_drw_memory_before_rectangle : faultOf (run1 0xD011 (fun s => (s.setI 0x1000#16).setReg 0 60#8)) = some (.memoryOutOfRange 0x1000) := by decide


/-! ### Keypad and timers -/

-- KT1.
theorem test_skp : (nextOf (run1 0xE59E (fun s => press (s.setReg 5 0x0A#8) 10))).map (fun t => t.pc) = some 0x204#16 := by decide

-- KT5.
theorem test_skp_out_of_range : faultOf (run1 0xE59E (·.setReg 5 0x10#8)) = some (.keyIndexOutOfRange 0x10#8) := by decide

-- KT4.
theorem test_sknp : (nextOf (run1 0xE5A1 (fun s => press (s.setReg 5 0x0A#8) 11))).map (fun t => t.pc) = some 0x204#16 := by decide

-- KT6.
theorem test_sknp_not_masked : faultOf (run1 0xE5A1 (fun s => press (s.setReg 5 0xFA#8) 10)) = some (.keyIndexOutOfRange 0xFA#8) := by decide

-- KT7.
theorem test_ldVxDt : (nextOf (run1 0xF207 (fun s => { s with dt := 0x0C#8 }))).map (fun t => (t.reg 2, t.dt)) = some (0x0C#8, 0x0B#8) := by decide

-- KT14.
theorem test_ldVxK_least : (nextOf (run1 0xF40A (fun s => press (press s 7) 3))).map (fun t => (t.reg 4, t.pc)) = some (0x03#8, 0x202#16) := by decide

-- KT15.
theorem test_ldVxK_none : (nextOf (run1 0xF40A (fun s => { s.setReg 4 0x55#8 with dt := 2#8, st := 1#8 }))).map (fun t => (t.reg 4, t.pc, t.dt, t.st)) = some (0x55#8, 0x200#16, 1#8, 0#8) := by decide

-- KT9.
theorem test_ldDtVx : (nextOf (run1 0xF315 (·.setReg 3 0x20#8))).map (fun t => (t.dt, t.pc)) = some (0x1F#8, 0x202#16) := by decide

-- KT12.
theorem test_ldStVx : (nextOf (run1 0xF318 (·.setReg 3 0x02#8))).map (fun t => (t.st, t.soundOn)) = some (0x01#8, true) := by decide


/-! ### Step cycle, reset, load -/

-- SC1.
theorem test_reset_step : faultOf (step State.reset) = some (.unknownOpcode 0x0000#16) := by decide

-- SC7, SC8.
theorem test_fetch_above_top : faultOf (step (State.reset.setPc 0xFFF#16)) = some (.memoryOutOfRange 0x1000) ∧
    faultOf (step (State.reset.setPc 0x1001#16)) = some (.memoryOutOfRange 0x1001) := by decide

-- SC9.
theorem test_odd_pc : (nextOf (run1 0x6107 (·.setPc 0x201#16))).map (fun t => (t.reg 1, t.pc)) = some (0x07#8, 0x203#16) := by decide

-- SC11.
theorem test_overwrites_itself : (nextOf (run1 0xF055 (·.setI 0x200#16))).map (fun t => (t.mem.read 0x200, t.mem.read 0x201, t.pc)) = some (0x00#8, 0x55#8, 0x202#16) := by decide

-- SC10.
theorem test_no_tick_on_failure : (stepCall { State.reset with dt := 3#8 }).1.dt = 3#8 := by decide

-- SC6.
theorem test_load_twice : ((nextOf (loadImage [0x12#8, 0x00#8] State.reset)).bind (fun s => nextOf (loadImage [0x60#8] s))).map
    (fun t => (t.mem.read 0x200, t.mem.read 0x201)) = some (0x60#8, 0x00#8) := by decide
-- R58: glyph A lies at 5 * 10.
theorem test_reset_glyph : (List.range 5).map (fun k => State.reset.mem.read (0x032 + k)) = [0xF0#8, 0x90#8, 0xF0#8, 0x90#8, 0x90#8] := by
  decide

/-! ### Witnesses: for each statement with hypotheses, a state and operands that meet them together -/

/-- The reset state with a word at PC. -/
def at0 (w : Nat) : State := State.reset.withFetchWord 16 w

theorem witness_DecodeOfEncodeIsTheInstruction : ∃ i : Instr, i.wellFormed = true ∧ encode i = 0xDFFF#16 :=
  ⟨.drw 15 15 15, by decide⟩

theorem witness_EncodeOfDecodeIsTheWord : ∃ op i, decodeWord op = some i := ⟨0x8AB6#16, .shr 10 11, by decide⟩

theorem witness_DecodeAgreesWithMaskMatchTable :
    ∃ (op : Word) (i : Instr) (r : OpcodeRow), decodeWord op = some i ∧ r ∈ opcodeRows ∧ op &&& r.mask = r.value :=
  ⟨0x8127#16, .subn 1 2, ⟨"SUBN", 0xF00F#16, 0x8007#16⟩, by decide⟩

theorem witness_StepRunsTheDecodedInstruction : ∃ (s : State) (op : Word) (i : Instr), s.pc.toNat ≤ 0xFFE ∧
    op.toNat = 256 * (s.mem.read s.pc.toNat).toNat + (s.mem.read (s.pc.toNat + 1)).toNat ∧ decodeWord op = some i :=
  ⟨(State.reset.setPc 0xFFE#16).withFetchWord 16 0x6001, 0x6001#16, .ldImm 0 1#8, by decide⟩

theorem witness_FetchAboveTheTopRaises : ∃ s : State, 0xFFE < s.pc.toNat := ⟨State.reset.setPc 0xFFF#16, by decide⟩

theorem witness_UnmatchedWordRaisesUnknownOpcode : ∃ (s : State) (op : Word), s.pc.toNat ≤ 0xFFE ∧ op.toNat = s.wordAtPc ∧
    ∀ r ∈ opcodeRows, op &&& r.mask ≠ r.value := ⟨State.reset, 0x0000#16, by decide⟩

theorem witness_TickEndsEverySuccessfulStep :
    (∃ s t, step s = .next t) ∧ ∃ (s : State) (f : Fault), step s = .fault f :=
  ⟨⟨at0 0x1200, _, rfl⟩, ⟨State.reset, _, rfl⟩⟩

theorem witness_TimersCountStepsDownToZero : ∃ n s t, RunsTo n s t ∧ RunAvoids (fun i => ∃ x, i = .ldDtVx x) n s ∧
    RunAvoids (fun i => ∃ x, i = .ldStVx x) n s ∧ t.dt = 1#8 := by
  have key : ∀ i, ({ at0 0x1200 with dt := 2#8 } : State).Selects i → i = .jp 0x200#12 := fun i h =>
    Option.some.inj (h.2.symm.trans (by decide))
  exact ⟨1, { at0 0x1200 with dt := 2#8 }, _, rfl, ⟨fun i h => by rw [key i h]; simp, fun _ _ => trivial⟩,
    ⟨fun i h => by rw [key i h]; simp, fun _ _ => trivial⟩, by decide⟩

theorem witness_OtherRegistersAreUnchanged : ∃ (i : Instr) (s t : State) (r : Reg), exec i s = .next t ∧ ¬ WritesReg i r :=
  ⟨.addReg 1 2, State.reset, _, 3, rfl, by simp [WritesReg]⟩

theorem witness_ProgramCounterChangesAsListed :
    (∃ (i : Instr) (s t : State), s.pc.toNat ≤ 0xFFE ∧ exec i s = .next t) ∧
    ∃ (s : State) (f : Fault), (stepCall s).2 = .fault f :=
  ⟨⟨.seImm 0 0#8, State.reset.setPc 0xFFE#16, _, by decide, rfl⟩, ⟨State.reset, _, rfl⟩⟩

theorem witness_OtherMemoryIsUnchanged : ∃ (i : Instr) (s t : State) (a : Nat), exec i s = .next t ∧ ¬ StoresTo i s a :=
  ⟨.ldB 0, State.reset.setI 0xFFD#16, _, 0xFFC, rfl, by unfold StoresTo; decide⟩

theorem witness_SpecialStateIsWrittenOnlyByTheNamedInstructions :
    ∃ (i : Instr) (s t : State), exec i s = .next t ∧ s.redraw = true :=
  ⟨.cls, { State.reset with redraw := true }, _, rfl, rfl⟩

theorem witness_CallPushesTheReturnAddress :
    (∃ s : State, s.sp.val < 16 ∧ s.sp.val = 15) ∧ ∃ s : State, s.sp.val = 16 :=
  ⟨⟨{ State.reset with sp := 15 }, by decide⟩, ⟨{ State.reset with sp := 16 }, by decide⟩⟩

theorem witness_ReturnPopsTheReturnAddress :
    (∃ (s : State) (k : Fin 16), s.sp.val = k.val + 1 ∧ k.val = 15) ∧ ∃ s : State, s.sp.val = 0 :=
  ⟨⟨{ State.reset with sp := 16 }, 15, by decide⟩, ⟨State.reset, by decide⟩⟩

theorem witness_ReturnUndoesCall : ∃ (nnn : Addr12) (s t u : State), exec (.call nnn) s = .next t ∧ u.sp = t.sp ∧
    u.stack = t.stack := ⟨0x13F#12, { State.reset with sp := 15 }, _, _, rfl, rfl, rfl⟩

theorem witness_AddRegistersSetsCarry : ∃ x : Reg, x ≠ 15 := ⟨14, by decide⟩

theorem witness_RandomIsMaskedFreeByte : ∃ (kk : Byte) (k : Nat), kk.getLsbD k = false := ⟨0x7F#8, 7, by decide⟩

theorem witness_StoreBcdWritesThreeDigits :
    (∃ s : State, s.i.toNat + 2 ≤ 0xFFF ∧ s.i = 0xFFD#16) ∧ ∃ s : State, 0xFFF < s.i.toNat + 2 ∧ s.i = 0xFFE#16 :=
  ⟨⟨State.reset.setI 0xFFD#16, by decide⟩, ⟨State.reset.setI 0xFFE#16, by decide⟩⟩

theorem witness_RegisterDumpStoresTheBlock : (∃ (x : Reg) (s : State), s.i.toNat + x.val ≤ 0xFFF ∧ s.i = 0xFF0#16 ∧ x = 15) ∧
    ∃ (x : Reg) (s : State), 0xFFF < s.i.toNat + x.val ∧ s.i = 0xFF1#16 ∧ x = 15 :=
  ⟨⟨15, State.reset.setI 0xFF0#16, by decide⟩, ⟨15, State.reset.setI 0xFF1#16, by decide⟩⟩

theorem witness_RegisterLoadReadsTheBlock : (∃ (x : Reg) (s : State), s.i.toNat + x.val ≤ 0xFFF ∧ s.i = 0xFFF#16) ∧
    ∃ (x : Reg) (s : State), 0xFFF < s.i.toNat + x.val ∧ s.i = 0x1000#16 ∧ x = 0 :=
  ⟨⟨0, State.reset.setI 0xFFF#16, by decide⟩, ⟨0, State.reset.setI 0x1000#16, by decide⟩⟩

theorem witness_RegisterLoadReadsBackTheDump : ∃ (x : Reg) (s t u : State), exec (.stRegs x) s = .next t ∧ u.mem = t.mem ∧
    u.i = t.i ∧ x = 15 := ⟨15, State.reset.setI 0xFF0#16, _, _, rfl, rfl, rfl, rfl⟩

theorem witness_NextFetchSeesTheStore : ∃ (x : Reg) (s t : State), 1 ≤ x.val ∧ s.i = s.pc + 2#16 ∧
    exec (.stRegs x) s = .next t := ⟨1, State.reset.setI 0x202#16, _, by decide, by decide, rfl⟩

theorem witness_DrawInvertsTheSpritePixels :
    (∃ (x y : Reg) (n : Nat) (s : State), n = 2 ∧ (s.i.toNat + n - 1 ≤ 0xFFF ∧ (s.reg x).toNat ≤ 56 ∧
      (s.reg y).toNat + n ≤ 32) ∧ s.reg x = 56#8 ∧ s.reg y = 30#8 ∧ s.i = 0xFFE#16) ∧
    ∃ (x y : Reg) (n : Nat) (s : State), (1 ≤ n → s.i.toNat + n - 1 ≤ 0xFFF ∧ (s.reg x).toNat ≤ 56 ∧
      (s.reg y).toNat + n ≤ 32) ∧ n = 0 ∧ s.reg x = 64#8 :=
  ⟨⟨0, 1, 2, (sprite 56#8 30#8 State.reset).setI 0xFFE#16, by decide⟩, ⟨0, 1, 0, sprite 64#8 0#8 State.reset, by decide⟩⟩

theorem witness_DrawInvertsTheSpritePixels_covered : ∃ r c, SpriteCovers (sprite 4#8 2#8 State.reset).mem 0x300 4 2 2 r c :=
  ⟨2, 5, by unfold SpriteCovers; decide⟩

theorem witness_DrawThatDoesNotFitRaises :
    (∃ (n : Nat) (s : State), 1 ≤ n ∧ 0xFFF < s.i.toNat + n - 1 ∧ s.i = 0xFFF#16 ∧ n = 2) ∧
    (∃ (n : Nat) (s : State), 1 ≤ n ∧ s.i.toNat + n - 1 ≤ 0xFFF ∧ 56 < (s.reg 0).toNat ∧ s.reg 0 = 57#8 ∧ n = 15) ∧
    ∃ (n : Nat) (s : State), 1 ≤ n ∧ s.i.toNat + n - 1 ≤ 0xFFF ∧ 32 < (s.reg 1).toNat + n ∧ s.reg 1 = 31#8 ∧ n = 2 :=
  ⟨⟨2, State.reset.setI 0xFFF#16, by decide⟩, ⟨15, sprite 57#8 0#8 State.reset, by decide⟩,
    ⟨2, sprite 0#8 31#8 State.reset, by decide⟩⟩

theorem witness_DrawingTwiceRestoresTheScreen : ∃ (x y : Reg) (n : Nat) (s t : State), x ≠ 15 ∧ y ≠ 15 ∧
    exec (.drw x y n) s = .next t ∧
    (∀ r c, SpriteCovers s.mem s.i.toNat (s.reg x).toNat (s.reg y).toNat n r c → s.fb.pixel r c = false) ∧
    ∃ r c, SpriteCovers s.mem s.i.toNat (s.reg x).toNat (s.reg y).toNat n r c := by
  refine ⟨0, 1, 2, sprite 4#8 2#8 State.reset, _, by decide, by decide, rfl, fun r c _ => ?_, 2, 5, ?_⟩
  · by_cases h : r < 32 ∧ c < 64
    · simp [Framebuffer.pixel, sprite, bytesAt, State.setReg, State.setI, State.reset]
    · simp only [Framebuffer.pixel, h, dite_false]
  · unfold SpriteCovers; decide

theorem witness_KeySkipsReadTheIndexedKey : (∃ (x : Reg) (s : State) (k : Fin 16), (s.reg x).toNat = k.val ∧ k = 15) ∧
    ∃ (x : Reg) (s : State), 15 < (s.reg x).toNat ∧ s.reg x = 16#8 :=
  ⟨⟨5, State.reset.setReg 5 15#8, 15, by decide⟩, ⟨5, State.reset.setReg 5 16#8, by decide⟩⟩

theorem witness_WaitForKeyTakesTheLeastPressedKey :
    (∃ (s : State) (k : Fin 16), s.keys[k.val] = true ∧ ∀ j : Fin 16, j < k → s.keys[j.val] = false) ∧
    ∃ s : State, ∀ k : Fin 16, s.keys[k.val] = false :=
  ⟨⟨press (press State.reset 12) 7, 7, by decide⟩, ⟨State.reset, by decide⟩⟩

/-- The vector CF2: JP 0x200 at 0x200 is the end of a run. -/
theorem test_atRunEnd_loop_to_self : (at0 0x1200).AtRunEnd := ⟨0x200#12, by decide, by decide, by decide⟩

/-- A jump to another address is not. -/
theorem test_not_atRunEnd_jump_elsewhere : ¬ (at0 0x1202).AtRunEnd := fun ⟨_, hn, hs⟩ => by
  cases Option.some.inj (hs.2.symm.trans (show decodeWord _ = some (.jp 0x202#12) by decide)); revert hn; decide

theorem witness_NoStateIsFinal :
    (∃ s : State, s.AtRunEnd) ∧ ∃ (s : State) (keys : Vector Bool 16) (k : Fin 16), s.AwaitingKey ∧ keys[k.val] = true :=
  ⟨⟨at0 0x1200, test_atRunEnd_loop_to_self⟩, at0 0xF50A, Vector.replicate 16 true, 15,
    ⟨⟨5, by decide, by decide⟩, by decide⟩, by decide⟩

theorem witness_RunEndIsKeptByEveryFurtherStep : ∃ n s t, RunEndsAt n s t ∧ n = 1 ∧ t.dt = 1#8 :=
  ⟨1, { at0 0x1200 with dt := 2#8 }, _, ⟨rfl, 0x200#12, by decide, by decide, by decide⟩, rfl, by decide⟩

/-- A concrete state that meets the invariant with a live stack entry. -/
theorem inv_at0 (w : Nat) (h : (at0 w).mem.wf = true) : (at0 w).Inv :=
  ⟨h, by show (0x200#16).toNat ≤ 0x10FE; decide, fun _ hk => absurd hk (Nat.not_lt_zero _)⟩

theorem witness_StepKeepsTheInvariant : ∃ s t : State, s.Inv ∧ step s = .next t :=
  ⟨at0 0x2ABC, _, inv_at0 _ (by decide), rfl⟩

theorem witness_HostActionsKeepTheInvariant : ∃ (a : HostAction) (s t : State), s.Inv ∧ hostAct a s = .next t :=
  ⟨.load [0x12#8, 0x00#8], at0 0x2ABC, _, inv_at0 _ (by decide), rfl⟩

theorem witness_DeadStackEntriesAreUnobservable :
    (∃ s t u : State, SameButDeadStack s t ∧ s.stack ≠ t.stack ∧ step s = .next u) ∧
    ∃ (s t : State) (f : Fault), SameButDeadStack s t ∧ s.stack ≠ t.stack ∧ step s = .fault f :=
  ⟨⟨at0 0x2ABC, { at0 0x2ABC with stack := Vector.replicate 16 0xFFFF#16 }, _,
      ⟨rfl, fun _ hk => absurd hk (Nat.not_lt_zero _)⟩, by decide, rfl⟩,
    ⟨at0 0x00EE, { at0 0x00EE with stack := Vector.replicate 16 0xFFFF#16 }, _,
      ⟨rfl, fun _ hk => absurd hk (Nat.not_lt_zero _)⟩, by decide, rfl⟩⟩

theorem witness_ResetZeroesTheDecidedState : ∃ font : Vector Byte 80, font.toList = defaultFont :=
  ⟨⟨defaultFont.toArray, rfl⟩, rfl⟩

theorem witness_LoadCopiesTheImage : (∃ bytes : List Byte, bytes.length ≤ 0xE00 ∧ bytes.length = 3584) ∧
    ∃ bytes : List Byte, 0xE00 < bytes.length ∧ bytes.length = 3585 :=
  ⟨⟨List.replicate 3584 0x12#8, by rw [List.length_replicate]; omega⟩,
    ⟨List.replicate 3585 0x12#8, by rw [List.length_replicate]; omega⟩⟩

theorem witness_FailedStepFailsAgain : ∃ (s : State) (f : Fault), (stepCall s).2 = .fault f := ⟨at0 0x00EE, _, rfl⟩

theorem witness_RedrawFlagDoesNotAffectRuns : ∃ (n : Nat) (s t : State), RunsTo n s t ∧ n = 3 ∧ s.redraw = true :=
  ⟨3, { at0 0x1200 with redraw := true }, _, rfl, rfl, rfl⟩

end Sys2Proof.Tests
end

/-! The program counter (10_state.md R24): the sums PC + 2 and PC + 4 as natural numbers, what each instruction that is no
plain `advance` leaves in PC, and the whole list. -/

namespace Sys2Proof.Machine

/-! ### PC, targets and offsets as natural numbers -/

/-- From a PC a word can be fetched from, at most 0xFFE, the sum PC + 2 does not wrap. -/
theorem State.toNat_advance_pc {s : State} (hpc : s.pc.toNat ≤ 0xFFE) : s.advance.pc.toNat = s.pc.toNat + 2 := by
  rw [State.advance_pc]; bv_omega

/-- From such a PC neither offset of a skip wraps. -/
theorem State.toNat_skipIf_pc {s : State} (hpc : s.pc.toNat ≤ 0xFFE) (c : Bool) :
    (s.skipIf c).pc.toNat = s.pc.toNat + if c then 4 else 2 := by
  rw [State.skipIf_pc]
  cases c
  · simp only [Bool.false_eq_true, if_false]; bv_omega
  · simp only [if_true]; bv_omega

/-- A skip on the negation of a condition: the offsets change places. -/
theorem State.toNat_skipIf_not_pc {s : State} (hpc : s.pc.toNat ≤ 0xFFE) (c : Bool) :
    (s.skipIf (!c)).pc.toNat = s.pc.toNat + if c then 2 else 4 := by
  rw [State.toNat_skipIf_pc hpc]; cases c <;> rfl

theorem toNat_addrOf (nnn : Addr12) : (addrOf nnn).toNat = nnn.toNat := by
  simp only [addrOf, BitVec.toNat_setWidth]; omega

theorem toNat_wideOf (b : Byte) : (wideOf b).toNat = b.toNat := by
  simp only [wideOf, BitVec.toNat_setWidth]; omega

/-- A 12-bit address and a byte add up to at most 0x10FE: the target of jump-with-offset does not wrap. -/
theorem toNat_addrOf_add_wideOf (nnn : Addr12) (b : Byte) :
    (addrOf nnn + wideOf b).toNat = nnn.toNat + b.toNat := by
  rw [BitVec.toNat_add, toNat_addrOf, toNat_wideOf]; omega

/-! ### What an instruction that completes did to PC -/

theorem execCall_next_pc {nnn : Addr12} {s t : State} (h : execCall nnn s = .next t) : t.pc = addrOf nnn := by
  unfold execCall at h
  split at h
  · cases h
  · cases h; rfl

/-- A return that completes leaves the newest live stack entry in PC. -/
theorem execRet_next_pc {s t : State} (h : execRet s = .next t) :
    ∃ k : Fin 16, k.val + 1 = s.sp.val ∧ t.pc = s.stack[k.val] := by
  unfold execRet at h
  split at h
  · cases h
  · rename_i w u hpop
    obtain ⟨hsp, hw, -⟩ := State.pop_ok hpop
    cases h
    exact ⟨⟨s.sp.val - 1, by omega⟩, Nat.succ_pred_eq_of_ne_zero hsp, hw⟩

theorem execSkp_next {x : Reg} {s t : State} (h : execSkp x s = .next t) :
    ∃ k : Fin 16, (s.reg x).toNat = k.val ∧ t = s.skipIf (s.keyPressed k) := by
  unfold execSkp at h
  split at h
  · cases h
  · rename_i k hk; cases h; exact ⟨k, keyIndex_ok.1 hk, rfl⟩

theorem execSknp_next {x : Reg} {s t : State} (h : execSknp x s = .next t) :
    ∃ k : Fin 16, (s.reg x).toNat = k.val ∧ t = s.skipIf (!s.keyPressed k) := by
  unfold execSknp at h
  split at h
  · cases h
  · rename_i k hk; cases h; exact ⟨k, keyIndex_ok.1 hk, rfl⟩

/-- Wait-for-key goes on when a key is pressed and stays when none is. -/
theorem execLdVxK_next_pc {x : Reg} {s t : State} (h : execLdVxK x s = .next t) :
    t.pc = if ∃ k : Fin 16, s.keys[k.val] = true then s.advance.pc else s.pc := by
  unfold execLdVxK at h
  split at h
  · rename_i k hk
    have hpressed : ∃ k : Fin 16, s.keys[k.val] = true := ⟨k, (State.firstKey_some.1 hk).1⟩
    cases h; rw [if_pos hpressed]; rfl
  · rename_i hnone
    have hnot : ¬ ∃ k : Fin 16, s.keys[k.val] = true := fun ⟨k, hk⟩ =>
      Bool.false_ne_true ((State.firstKey_none.1 hnone k).symm.trans hk)
    cases h; rw [if_neg hnot]

/-- A draw that completes passed both of its tests, and PC advances. -/
theorem execDrw_next_pc {x y : Reg} {n : Nat} {s t : State} (h : execDrw x y n s = .next t) : t.pc = s.advance.pc := by
  obtain ⟨-, hdraw⟩ := guardAccess_next h
  split at hdraw
  · cases hdraw
  · cases hdraw; rfl

/-! ### The list of R24 -/

/-- From a PC a word can be fetched from, an instruction that completes leaves PC at the value R24 lists. -/
theorem exec_next_pcAfter {i : Instr} {s t : State} (hpc : s.pc.toNat ≤ 0xFFE) (h : exec i s = .next t) :
    PcAfter i s t.pc.toNat := by
  have hadvance : t.pc = s.advance.pc → t.pc.toNat = s.pc.toNat + 2 :=
    fun e => (congrArg BitVec.toNat e).trans (State.toNat_advance_pc hpc)
  cases i with
  | jp nnn => cases h; exact toNat_addrOf nnn
  | jpV0 nnn => cases h; exact toNat_addrOf_add_wideOf nnn (s.reg regV0)
  | call nnn => exact (congrArg BitVec.toNat (execCall_next_pc h)).trans (toNat_addrOf nnn)
  | ret =>
    obtain ⟨k, hk, ht⟩ := execRet_next_pc h
    exact ⟨k, hk, congrArg BitVec.toNat ht⟩
  | seImm x kk => cases h; simpa [PcAfter] using State.toNat_skipIf_pc hpc (decide (s.reg x = kk))
  | seReg x y => cases h; simpa [PcAfter] using State.toNat_skipIf_pc hpc (decide (s.reg x = s.reg y))
  | sneImm x kk => cases h; simpa [PcAfter] using State.toNat_skipIf_not_pc hpc (decide (s.reg x = kk))
  | sneReg x y => cases h; simpa [PcAfter] using State.toNat_skipIf_not_pc hpc (decide (s.reg x = s.reg y))
  | skp x =>
    obtain ⟨k, hk, rfl⟩ := execSkp_next h
    exact ⟨k, hk, State.toNat_skipIf_pc hpc (s.keyPressed k)⟩
  | sknp x =>
    obtain ⟨k, hk, rfl⟩ := execSknp_next h
    exact ⟨k, hk, State.toNat_skipIf_not_pc hpc (s.keyPressed k)⟩
  | ldVxK x =>
    have ht := execLdVxK_next_pc h
    by_cases hpressed : ∃ k : Fin 16, s.keys[k.val] = true
    · simp only [PcAfter, if_pos hpressed] at ht ⊢; exact hadvance ht
    · simp only [PcAfter, if_neg hpressed] at ht ⊢; exact congrArg BitVec.toNat ht
  | drw x y n => exact hadvance (execDrw_next_pc h)
  | ldB x | stRegs x | ldRegs x =>
    obtain ⟨-, hnext⟩ := guardAccess_next h
    cases hnext; exact hadvance rfl
  | _ => cases h; exact hadvance rfl

/-! ### A step that raises -/

/-- The host finds the state it had before a call that ends with an error (R171). -/
theorem stepCall_fault_state {s : State} {f : Fault} (h : (stepCall s).2 = .fault f) : (stepCall s).1 = s := by
  unfold stepCall at h ⊢
  cases hstep : step s with
  | next t => rw [hstep] at h; cases h
  | fault g => rfl
  | refused r => rfl

/-- Settles O13: the list of R24 by cases on the instruction, and the unchanged state of a call that raises. -/
theorem programCounterChangesAsListed : Obligations.ProgramCounterChangesAsListed :=
  ⟨fun _ _ _ hpc h => exec_next_pcAfter hpc h, fun _ _ h => congrArg State.pc (stepCall_fault_state h)⟩

end Sys2Proof.Machine

/-! Control transfer (41_control_flow.md): the jumps, the call with its push, and the compare skips. -/

namespace Sys2Proof.Machine

/-! ### Jumps -/

/-- Settles O16: the targets are `nnn` and `nnn + V0` as natural numbers, and setting PC touches no other field. -/
theorem jumpsSetThePc : Obligations.JumpsSetThePc := fun nnn s =>
  ⟨⟨s.setPc (addrOf nnn), rfl, toNat_addrOf nnn, rfl⟩,
    ⟨s.setPc (addrOf nnn + wideOf (s.reg regV0)), rfl, toNat_addrOf_add_wideOf nnn (s.reg regV0), rfl⟩⟩

/-! ### Call -/

/-- A call with a free entry completes: it is the push of PC + 2, then the jump. -/
theorem execCall_of_sp_lt (nnn : Addr12) {s : State} (hs : s.sp.val < 16) :
    execCall nnn s = .next { s with
      stack := s.stack.set s.sp.val (s.pc + 2#16) hs
      sp := ⟨s.sp.val + 1, Nat.succ_lt_succ hs⟩
      pc := addrOf nnn } := by
  unfold execCall
  cases hpush : s.push (s.pc + 2#16) with
  | error f => exact absurd (State.push_error hpush).1 hs.ne
  | ok t => obtain ⟨_, rfl⟩ := State.push_ok hpush; rfl

/-- A call on a full stack raises StackOverflow (R32, R101). -/
theorem execCall_of_sp_eq (nnn : Addr12) {s : State} (hs : s.sp.val = 16) :
    execCall nnn s = .fault .stackOverflow := by
  unfold execCall
  cases hpush : s.push (s.pc + 2#16) with
  | error f => exact congrArg Host.Outcome.fault (State.push_error hpush).2
  | ok t => exact absurd hs (State.push_ok hpush).1.ne

/-- Settles O17: the two outcomes of a call, and the stack array read at SP and away from it. -/
theorem callPushesTheReturnAddress : Obligations.CallPushesTheReturnAddress := fun nnn _ =>
  ⟨fun hs => ⟨_, execCall_of_sp_lt nnn hs, toNat_addrOf nnn, rfl, Vector.getElem_set_self hs,
      fun k hk => Vector.getElem_set_ne hs k.isLt hk.symm, rfl⟩,
    execCall_of_sp_eq nnn⟩

/-! ### Compare skips -/

/-- A skip when two bytes are equal, as a record: PC + 4 on equality, else PC + 2. -/
theorem State.skipIf_decide_eq (s : State) (a b : Byte) :
    s.skipIf (decide (a = b)) = { s with pc := s.pc + if a.toNat = b.toNat then 4#16 else 2#16 } := by
  simp only [State.skipIf, State.setPc, decide_eq_true_eq, BitVec.toNat_inj]

/-- A skip when two bytes differ: the offsets change places. -/
theorem State.skipIf_decide_ne (s : State) (a b : Byte) :
    s.skipIf (decide (a ≠ b)) = { s with pc := s.pc + if a.toNat = b.toNat then 2#16 else 4#16 } := by
  simp only [State.skipIf, State.setPc, decide_eq_true_eq, ne_eq, ite_not, BitVec.toNat_inj]

/-- Settles O20: each of the four instructions is a skip on the equality of two bytes or on its negation. -/
theorem compareSkips : Obligations.CompareSkips := fun x y kk s =>
  ⟨congrArg Host.Outcome.next (s.skipIf_decide_eq (s.reg x) kk),
    congrArg Host.Outcome.next (s.skipIf_decide_ne (s.reg x) kk),
    congrArg Host.Outcome.next (s.skipIf_decide_eq (s.reg x) (s.reg y)),
    congrArg Host.Outcome.next (s.skipIf_decide_ne (s.reg x) (s.reg y))⟩

end Sys2Proof.Machine

/-! The ALU instructions that write no flag (42_alu.md sections 2 and 3): loads, add immediate and the bitwise forms. -/

namespace Sys2Proof.Machine

/-- An instruction that writes `b` to V[x] and advances: what holds of `b` holds of the new V[x], and no other register
(VF among them) and no other field changes. -/
theorem exists_next_of_setReg_advance {o : Result} {s : State} {x : Reg} {b : Byte} (P : Byte → Prop)
    (ho : o = .next (s.setReg x b).advance) (hb : P b) :
    ∃ t, o = .next t ∧ P (t.reg x) ∧ (∀ r, r ≠ x → t.reg r = s.reg r) ∧ t.pc = s.pc + 2#16 ∧
      t = { s with v := t.v, pc := t.pc } := by
  refine ⟨_, ho, ?_, fun r hr => ?_, rfl, rfl⟩
  · rwa [State.reg_advance, State.reg_setReg_same]
  · rw [State.reg_advance, State.reg_setReg_ne s b hr]

/-- Settles O21: the byte written is the immediate, or the old V[y]. -/
theorem loadsSetTheRegister : Obligations.LoadsSetTheRegister := fun _ y kk s =>
  ⟨exists_next_of_setReg_advance (· = kk) rfl rfl, exists_next_of_setReg_advance (· = s.reg y) rfl rfl⟩

/-- Settles O22: the byte written is a sum of bytes, which wraps modulo 256. -/
theorem addImmediateWrapsWithoutFlag : Obligations.AddImmediateWrapsWithoutFlag := fun x kk s =>
  exists_next_of_setReg_advance (fun v => v.toNat = ((s.reg x).toNat + kk.toNat) % 256) rfl
    (BitVec.toNat_add (s.reg x) kk)

/-- Settles O23: each bit of the byte written is the operation on the two old bits. -/
theorem bitwiseCombineWithoutFlag : Obligations.BitwiseCombineWithoutFlag := fun x y s =>
  ⟨exists_next_of_setReg_advance (fun v => ∀ k, v.getLsbD k = ((s.reg x).getLsbD k || (s.reg y).getLsbD k)) rfl
      fun _ => BitVec.getLsbD_or,
    exists_next_of_setReg_advance (fun v => ∀ k, v.getLsbD k = ((s.reg x).getLsbD k && (s.reg y).getLsbD k)) rfl
      fun _ => BitVec.getLsbD_and,
    exists_next_of_setReg_advance (fun v => ∀ k, v.getLsbD k = ((s.reg x).getLsbD k ^^ (s.reg y).getLsbD k)) rfl
      fun _ => BitVec.getLsbD_xor⟩

end Sys2Proof.Machine

/-! The instructions that set the index register (43_index_memory.md): set index and index-to-font-sprite. -/

namespace Sys2Proof.Machine

/-- The glyph address is the whole byte times 5: at most 1275, so the 16-bit product does not wrap. -/
theorem toNat_glyphAddr (b : Byte) : (glyphAddr b).toNat = b.toNat * 5 := by
  have hlt : b.toNat * 5 < 2 ^ 16 := by omega
  rw [glyphAddr, BitVec.toNat_mul, toNat_wideOf]
  exact Nat.mod_eq_of_lt hlt

/-- An instruction that sets I to `w` and advances: what holds of `w` holds of the new I, and no other field changes. -/
theorem exists_next_of_setI_advance {o : Result} {s : State} {w : Word} (P : Word → Prop)
    (ho : o = .next (s.setI w).advance) (hw : P w) :
    ∃ t, o = .next t ∧ P t.i ∧ t.pc = s.pc + 2#16 ∧ t = { s with i := t.i, pc := t.pc } :=
  ⟨_, ho, hw, rfl, rfl⟩

/-- Settles O28: the word that goes to I is the zero-extended `nnn`, or the glyph address of V[x]. -/
theorem indexIsSet : Obligations.IndexIsSet := fun nnn x s =>
  ⟨exists_next_of_setI_advance (·.toNat = nnn.toNat) rfl (toNat_addrOf nnn),
    exists_next_of_setI_advance (·.toNat = (s.reg x).toNat * 5) rfl (toNat_glyphAddr (s.reg x))⟩

end Sys2Proof.Machine

/-! Clear-display (44_display.md R150): which fields it writes. -/

namespace Sys2Proof.Machine

/-- Clear-display tests nothing, so it completes in every state, and it writes two fields: the framebuffer and PC. -/
theorem exec_cls (s : State) : exec .cls s = .next { s with fb := clearScreen, pc := s.pc + 2#16 } := rfl

/-- Settles O35: no pixel of the new framebuffer is set, and the record update names every field that changed. -/
theorem clearDisplayZeroesTheScreen : Obligations.ClearDisplayZeroesTheScreen := fun s =>
  ⟨_, exec_cls s, pixel_clearScreen, rfl, rfl⟩

end Sys2Proof.Machine

/-! The timers (60_exceptions.md R180 to R182): which instructions leave them alone, what one step does to a timer its
instruction does not write, and the count down along a run. -/

namespace Sys2Proof.Machine

/-! ### The instruction a step executes, and the first step of a run -/

/-- The word a step fetches is the word at PC, so the instruction it decodes to is the selected one. -/
theorem State.selects_of_fetch {s : State} {op : Word} {i : Instr} (hfetch : fetch s = .ok op)
    (hdecode : decodeWord op = some i) : s.Selects i := by
  have hpc := fetch_ok_pc hfetch
  rw [fetch_ok hpc, Except.ok.injEq] at hfetch
  have hword : s.wordAtPc = op.toNat := by rw [← hfetch, toNat_wordOfBytes, State.wordAtPc]
  refine ⟨hpc, ?_⟩
  rwa [hword, BitVec.ofNat_toNat, BitVec.setWidth_eq]

/-- A step that raises nothing executed the instruction the state selects, and ticked. -/
theorem step_next_selects {s t : State} (h : step s = .next t) :
    ∃ i u, s.Selects i ∧ exec i s = .next u ∧ t = u.tick := by
  obtain ⟨op, i, u, hfetch, hdecode, hexec, ht⟩ := step_next h
  exact ⟨i, u, State.selects_of_fetch hfetch hdecode, hexec, ht⟩

theorem RunsTo.eq_of_zero {s t : State} (h : RunsTo 0 s t) : t = s := by
  cases h; rfl

/-- On every machine, a run of `k + 1` steps that stops at no fault or refusal is a step and then a run of `k` steps. -/
theorem coreRun_succ_next {M : Host.Core} {k : Nat} {s t : M.State} (h : M.run (k + 1) s = .next t) :
    ∃ u, M.step s = .next u ∧ M.run k u = .next t := by
  unfold Host.Core.run at h
  split at h
  · exact ⟨_, ‹_›, h⟩
  · cases h
  · cases h

theorem RunsTo.exists_step {n : Nat} {s t : State} (h : RunsTo (n + 1) s t) :
    ∃ u, step s = .next u ∧ RunsTo n u t := coreRun_succ_next h

/-! ### The instructions that write no timer -/

/-- A call that completes writes the stack, SP and PC. -/
theorem execCall_next {nnn : Addr12} {s t : State} (h : execCall nnn s = .next t) :
    ∃ stack sp, t = { s with stack := stack, sp := sp, pc := addrOf nnn } := by
  unfold execCall at h
  split at h
  · cases h
  · rename_i u hpush
    obtain ⟨_, rfl⟩ := State.push_ok hpush
    cases h; exact ⟨_, _, rfl⟩

/-- A return that completes writes SP and PC. -/
theorem execRet_next {s t : State} (h : execRet s = .next t) : ∃ sp pc, t = { s with sp := sp, pc := pc } := by
  unfold execRet at h
  split at h
  · cases h
  · rename_i w u hpop
    obtain ⟨-, -, rfl⟩ := State.pop_ok hpop
    cases h; exact ⟨_, _, rfl⟩

/-- Wait-for-key writes V[x] and PC, or nothing at all. -/
theorem execLdVxK_next {x : Reg} {s t : State} (h : execLdVxK x s = .next t) :
    t = s ∨ ∃ b, t = (s.setReg x b).advance := by
  unfold execLdVxK at h
  split at h
  · cases h; exact .inr ⟨_, rfl⟩
  · cases h; exact .inl rfl

/-- A draw that completes writes VF, the framebuffer, the redraw flag and PC. -/
theorem execDrw_next {x y : Reg} {n : Nat} {s t : State} (h : execDrw x y n s = .next t) :
    ∃ b fb, t = { s.setReg regVF b with fb := fb, redraw := true }.advance := by
  obtain ⟨-, hdraw⟩ := guardAccess_next h
  split at hdraw
  · cases hdraw
  · cases hdraw; exact ⟨_, _, rfl⟩

/-- Each timer is written by the one instruction that sets it, and by no other. -/
theorem exec_next_timers {i : Instr} {s t : State} (h : exec i s = .next t) :
    ((¬ ∃ x, i = .ldDtVx x) → t.dt = s.dt) ∧ ((¬ ∃ x, i = .ldStVx x) → t.st = s.st) := by
  have hkept {p q : Prop} (hdt : t.dt = s.dt) (hst : t.st = s.st) : (p → t.dt = s.dt) ∧ (q → t.st = s.st) :=
    ⟨fun _ => hdt, fun _ => hst⟩
  cases i with
  | ldDtVx x => cases h; exact ⟨fun hne => absurd ⟨x, rfl⟩ hne, fun _ => rfl⟩
  | ldStVx x => cases h; exact ⟨fun _ => rfl, fun hne => absurd ⟨x, rfl⟩ hne⟩
  | call nnn => obtain ⟨_, _, rfl⟩ := execCall_next h; exact hkept rfl rfl
  | ret => obtain ⟨_, _, rfl⟩ := execRet_next h; exact hkept rfl rfl
  | skp x => obtain ⟨_, -, rfl⟩ := execSkp_next h; exact hkept rfl rfl
  | sknp x => obtain ⟨_, -, rfl⟩ := execSknp_next h; exact hkept rfl rfl
  | ldVxK x => obtain rfl | ⟨_, rfl⟩ := execLdVxK_next h <;> exact hkept rfl rfl
  | drw x y n => obtain ⟨_, _, rfl⟩ := execDrw_next h; exact hkept rfl rfl
  | ldB x | stRegs x | ldRegs x =>
    obtain ⟨-, hnext⟩ := guardAccess_next h
    cases hnext; exact hkept rfl rfl
  | _ => cases h; exact hkept rfl rfl

/-! ### The count down along a run -/

/-- A field that the tick counts down and that only the instructions of `bad` write: a run of `n` steps that executes
none of them takes it down by `n`, as far as zero. -/
theorem RunsTo.toNat_timer {timer : State → Byte} {bad : Instr → Prop}
    (htick : ∀ u : State, timer u.tick = countDown (timer u))
    (hkept : ∀ {i : Instr} {s u : State}, exec i s = .next u → ¬ bad i → timer u = timer s)
    {n : Nat} {s t : State} (hrun : RunsTo n s t) (havoid : RunAvoids bad n s) :
    (timer t).toNat = (timer s).toNat - n := by
  induction n generalizing s with
  | zero => rw [hrun.eq_of_zero, Nat.sub_zero]
  | succ n ih =>
    obtain ⟨s', hstep, hrest⟩ := hrun.exists_step
    obtain ⟨havoidStep, havoidRest⟩ := havoid
    obtain ⟨i, u, hselects, hexec, rfl⟩ := step_next_selects hstep
    have hone : (timer u.tick).toNat = (timer s).toNat - 1 := by
      rw [htick, toNat_countDown, hkept hexec (havoidStep i hselects)]
    rw [ih hrest (havoidRest _ hstep), hone, Nat.sub_sub, Nat.add_comm 1 n]

/-- Settles O10, by induction on the number of steps, each timer with the instruction that sets it. -/
theorem timersCountStepsDownToZero : Obligations.TimersCountStepsDownToZero := fun _ _ _ hrun =>
  ⟨hrun.toNat_timer (timer := State.dt) State.tick_dt fun hexec => (exec_next_timers hexec).1,
    hrun.toNat_timer (timer := State.st) State.tick_st fun hexec => (exec_next_timers hexec).2⟩

end Sys2Proof.Machine

/-! The decoder and the encoder (30_encoding.md): the round trip both ways, the mask and match table, and the words that
select no instruction. -/

namespace Sys2Proof

/-- Settles O1: nineteen closed equations, evaluated. -/
theorem specWordsDecode : Obligations.SpecWordsDecode := by
  unfold Obligations.SpecWordsDecode; decide

/-! ### The word of an instruction decodes to it -/

/-- The decoder undoes the encoder: the major nibble of the format selects the group, the minor field the instruction in
it, and each operand is a field of the format. -/
theorem decodeWord_encode {i : Instr} (h : i.wellFormed = true) : decodeWord (encode i) = some i := by
  cases i with
  | cls | ret => decide
  | jp nnn | call nnn | ldI nnn | jpV0 nnn =>
    simp [encode, decodeWord, major_formatA, nnn_formatA]
  | seImm x kk | sneImm x kk | ldImm x kk | addImm x kk | rnd x kk =>
    simp [encode, decodeWord, major_formatXK, x_formatXK, kk_formatXK]
  | seReg x y | sneReg x y =>
    simp [encode, decodeWord, major_formatXY, x_formatXY, y_formatXY, n_formatXY]
  | ldReg x y | orReg x y | andReg x y | xorReg x y | addReg x y | sub x y | shr x y | subn x y | shl x y =>
    simp [encode, decodeWord, decodeGroup8, major_formatXY, x_formatXY, y_formatXY, n_formatXY]
  | drw x y n =>
    have hn : n % 16 = n := Nat.mod_eq_of_lt (Nat.lt_succ_of_le (of_decide_eq_true h))
    simp [encode, decodeWord, major_formatXY, x_formatXY, y_formatXY, n_formatXY, hn]
  | skp x | sknp x =>
    simp [encode, decodeWord, decodeGroupE, major_formatXK, x_formatXK, kk_formatXK]
  | ldVxDt x | ldVxK x | ldDtVx x | ldStVx x | addI x | ldF x | ldB x | stRegs x | ldRegs x =>
    simp [encode, decodeWord, decodeGroupF, major_formatXK, x_formatXK, kk_formatXK]

/-- Settles O2: the word decodes back, and its two bytes put together again are the word. -/
theorem decodeOfEncodeIsTheInstruction : Obligations.DecodeOfEncodeIsTheInstruction := fun i h => by
  have hword : decodeWord (encode i) = some i := decodeWord_encode h
  refine ⟨hword, fun rest => ?_⟩
  rw [encodeBytes, decode_bytesOfWord, hword]

/-! ### A word that decodes is the word of its instruction -/

theorem formatA_fields (op : Word) : formatA (fieldMajor op) (fieldNnn op) = op := by
  have := op.isLt
  apply BitVec.eq_of_toNat_eq
  rw [toNat_formatA, toNat_fieldMajor, toNat_fieldNnn]; omega

theorem formatXK_fields (op : Word) : formatXK (fieldMajor op) (fieldX op) (fieldKk op) = op := by
  have := op.isLt
  apply BitVec.eq_of_toNat_eq
  rw [toNat_formatXK, toNat_fieldMajor, val_fieldX, toNat_fieldKk]; omega

theorem formatXY_fields (op : Word) :
    formatXY (fieldMajor op) (fieldX op) (fieldY op) (BitVec.ofNat 4 (fieldN op)) = op := by
  have := op.isLt
  apply BitVec.eq_of_toNat_eq
  rw [toNat_formatXY, toNat_fieldMajor, val_fieldX, val_fieldY, fieldN_eq, BitVec.toNat_ofNat]; omega

theorem fieldN_le (op : Word) : fieldN op ≤ 15 := by
  rw [fieldN_eq]; omega

/-- A word of major nibble `m` is the format of its fields with `m` written out. -/
theorem formatA_of_major {op : Word} {m : BitVec 4} (hm : (fieldMajor op).toNat = m.toNat) :
    formatA m (fieldNnn op) = op := by
  rw [← BitVec.eq_of_toNat_eq hm, formatA_fields]

theorem formatXK_of_major {op : Word} {m : BitVec 4} (hm : (fieldMajor op).toNat = m.toNat) :
    formatXK m (fieldX op) (fieldKk op) = op := by
  rw [← BitVec.eq_of_toNat_eq hm, formatXK_fields]

theorem formatXY_of_major {op : Word} {m : BitVec 4} (hm : (fieldMajor op).toNat = m.toNat) :
    formatXY m (fieldX op) (fieldY op) (BitVec.ofNat 4 (fieldN op)) = op := by
  rw [← BitVec.eq_of_toNat_eq hm, formatXY_fields]

theorem encode_of_decodeGroup0 {op : Word} {i : Instr} (h : decodeGroup0 op = some i) :
    i.wellFormed = true ∧ encode i = op := by
  unfold decodeGroup0 at h
  split_ifs at h with h1 h2
  · cases h; exact ⟨rfl, h1.symm⟩
  · cases h; exact ⟨rfl, h2.symm⟩

theorem encode_of_decodeGroup8 {op : Word} {i : Instr} (hm : (fieldMajor op).toNat = 8)
    (h : decodeGroup8 op = some i) : i.wellFormed = true ∧ encode i = op := by
  have hop := formatXY_of_major (m := 8#4) hm
  unfold decodeGroup8 at h
  split at h
  case h_10 => cases h
  all_goals
    rename_i hn
    rw [hn] at hop
    cases h; exact ⟨rfl, hop⟩

theorem encode_of_decodeGroupE {op : Word} {i : Instr} (hm : (fieldMajor op).toNat = 14)
    (h : decodeGroupE op = some i) : i.wellFormed = true ∧ encode i = op := by
  have hop := formatXK_of_major (m := 14#4) hm
  unfold decodeGroupE at h
  split_ifs at h with hk hk
  all_goals
    rw [hk] at hop
    cases h; exact ⟨rfl, hop⟩

theorem encode_of_decodeGroupF {op : Word} {i : Instr} (hm : (fieldMajor op).toNat = 15)
    (h : decodeGroupF op = some i) : i.wellFormed = true ∧ encode i = op := by
  have hop := formatXK_of_major (m := 15#4) hm
  unfold decodeGroupF at h
  split_ifs at h with hk hk hk hk hk hk hk hk hk
  all_goals
    rw [hk] at hop
    cases h; exact ⟨rfl, hop⟩

/-- The register compare skips: their low nibble is fixed at zero. -/
theorem encode_of_zero_minor {op : Word} {i j : Instr} {m : BitVec 4} (hj : j.wellFormed = true)
    (he : encode j = formatXY m (fieldX op) (fieldY op) 0#4) (hm : (fieldMajor op).toNat = m.toNat)
    (h : (if fieldN op = 0 then some j else none) = some i) : i.wellFormed = true ∧ encode i = op := by
  have hop := formatXY_of_major hm
  split_ifs at h with hn
  rw [hn] at hop
  cases h; exact ⟨hj, he.trans hop⟩

/-- The encoder undoes the decoder: in each group the fixed field that selected the instruction and the operands read
are all the bits of the word. -/
theorem encode_of_decodeWord {op : Word} {i : Instr} (h : decodeWord op = some i) :
    i.wellFormed = true ∧ encode i = op := by
  unfold decodeWord at h
  split at h
  case h_1 => exact encode_of_decodeGroup0 h
  case h_2 hm | h_3 hm | h_11 hm | h_12 hm => cases h; exact ⟨rfl, formatA_of_major hm⟩
  case h_4 hm | h_5 hm | h_7 hm | h_8 hm | h_13 hm => cases h; exact ⟨rfl, formatXK_of_major hm⟩
  case h_6 hm => exact encode_of_zero_minor (m := 5#4) rfl rfl hm h
  case h_10 hm => exact encode_of_zero_minor (m := 9#4) rfl rfl hm h
  case h_9 hm => exact encode_of_decodeGroup8 hm h
  case h_14 hm => cases h; exact ⟨decide_eq_true (fieldN_le op), formatXY_of_major hm⟩
  case h_15 hm => exact encode_of_decodeGroupE hm h
  case h_16 hm => exact encode_of_decodeGroupF hm h
  case h_17 => cases h

/-- Settles O3: the encoder undoes the decoder on every word. -/
theorem encodeOfDecodeIsTheWord : Obligations.EncodeOfDecodeIsTheWord := fun _ _ h => encode_of_decodeWord h

/-! ### The mask and match table -/

/-- The encoding of every instruction carries the fixed bits of the instruction's own row. -/
theorem fixedBits_statement : ∀ i : Instr, Laws.FixedBits.Statement i
  | .cls => Laws.FixedBits.cls
  | .ret => Laws.FixedBits.ret
  | .jp nnn => Laws.FixedBits.jp nnn
  | .call nnn => Laws.FixedBits.call nnn
  | .seImm x kk => Laws.FixedBits.seImm x kk
  | .sneImm x kk => Laws.FixedBits.sneImm x kk
  | .seReg x y => Laws.FixedBits.seReg x y
  | .ldImm x kk => Laws.FixedBits.ldImm x kk
  | .addImm x kk => Laws.FixedBits.addImm x kk
  | .ldReg x y => Laws.FixedBits.ldReg x y
  | .orReg x y => Laws.FixedBits.orReg x y
  | .andReg x y => Laws.FixedBits.andReg x y
  | .xorReg x y => Laws.FixedBits.xorReg x y
  | .addReg x y => Laws.FixedBits.addReg x y
  | .sub x y => Laws.FixedBits.sub x y
  | .shr x y => Laws.FixedBits.shr x y
  | .subn x y => Laws.FixedBits.subn x y
  | .shl x y => Laws.FixedBits.shl x y
  | .sneReg x y => Laws.FixedBits.sneReg x y
  | .ldI nnn => Laws.FixedBits.ldI nnn
  | .jpV0 nnn => Laws.FixedBits.jpV0 nnn
  | .rnd x kk => Laws.FixedBits.rnd x kk
  | .drw x y n => Laws.FixedBits.drw x y n
  | .skp x => Laws.FixedBits.skp x
  | .sknp x => Laws.FixedBits.sknp x
  | .ldVxDt x => Laws.FixedBits.ldVxDt x
  | .ldVxK x => Laws.FixedBits.ldVxK x
  | .ldDtVx x => Laws.FixedBits.ldDtVx x
  | .ldStVx x => Laws.FixedBits.ldStVx x
  | .addI x => Laws.FixedBits.addI x
  | .ldF x => Laws.FixedBits.ldF x
  | .ldB x => Laws.FixedBits.ldB x
  | .stRegs x => Laws.FixedBits.stRegs x
  | .ldRegs x => Laws.FixedBits.ldRegs x

/-- A word that decodes is matched by the row of its instruction: it is the encoding of that instruction. -/
theorem exists_row_of_decodeWord {op : Word} {i : Instr} (h : decodeWord op = some i) :
    ∃ r ∈ opcodeRows, r.mnemonic = i.mnemonic ∧ op &&& r.mask = r.value := by
  have hrow := fixedBits_statement i
  rwa [Laws.FixedBits.Statement, (encode_of_decodeWord h).2] at hrow

/-- A mask whose major nibble is full fixes the major nibble of the words it matches. -/
theorem toNat_fieldMajor_of_mask {op mask v : Word} (h : op &&& mask = v)
    (hmask : mask.extractLsb' 12 4 = BitVec.allOnes 4) : (fieldMajor op).toNat = v.toNat / 4096 := by
  rw [← toNat_fieldMajor, ← h, fieldMajor, fieldMajor, BitVec.extractLsb'_and, hmask, BitVec.and_allOnes]

/-- A mask whose low nibble is full fixes `n`. -/
theorem fieldN_of_mask {op mask v : Word} (h : op &&& mask = v)
    (hmask : mask.extractLsb' 0 4 = BitVec.allOnes 4) : fieldN op = v.toNat % 16 := by
  rw [← fieldN_eq, ← h, fieldN, fieldN, BitVec.extractLsb'_and, hmask, BitVec.and_allOnes]

/-- A mask whose low byte is full fixes `kk`. -/
theorem fieldKk_of_mask {op mask v : Word} (h : op &&& mask = v)
    (hmask : mask.extractLsb' 0 8 = BitVec.allOnes 8) : fieldKk op = v.extractLsb' 0 8 := by
  rw [← h, BitVec.extractLsb'_and, hmask, BitVec.and_allOnes, fieldKk]

/-- If the row matches the word, the word decodes to an instruction of the row. -/
def SelectedByRow (op : Word) (r : OpcodeRow) : Prop :=
  op &&& r.mask = r.value → ∃ i, decodeWord op = some i ∧ i.mnemonic = r.mnemonic

theorem selectedByRow_plain (op : Word) : ∀ r ∈ opcodeRowsPlain, SelectedByRow op r := by
  simp only [opcodeRowsPlain, List.forall_mem_cons]
  refine ⟨fun h => ?cls, fun h => ?ret, fun h => ?jp, fun h => ?call, fun h => ?seImm, fun h => ?sneImm,
    fun h => ?seReg, fun h => ?ldImm, fun h => ?addImm, nofun⟩
  case cls | ret =>
    have hop : op = _ := (BitVec.and_allOnes (x := op)).symm.trans h
    subst hop; exact ⟨_, rfl, rfl⟩
  case seReg =>
    have hmajor := toNat_fieldMajor_of_mask h (by decide)
    have hn := fieldN_of_mask h (by decide)
    simp [decodeWord, hmajor, hn, Instr.mnemonic]
  all_goals
    have hmajor := toNat_fieldMajor_of_mask h (by decide)
    simp [decodeWord, hmajor, Instr.mnemonic]

theorem selectedByRow_arith (op : Word) : ∀ r ∈ opcodeRowsArith, SelectedByRow op r := by
  simp only [opcodeRowsArith, List.forall_mem_cons]
  and_intros
  on_goal 10 => exact nofun
  all_goals
    intro h
    have hmajor := toNat_fieldMajor_of_mask h (by decide)
    have hn := fieldN_of_mask h (by decide)
    simp [decodeWord, decodeGroup8, hmajor, hn, Instr.mnemonic]

theorem selectedByRow_rest (op : Word) : ∀ r ∈ opcodeRowsRest, SelectedByRow op r := by
  simp only [opcodeRowsRest, List.forall_mem_cons]
  refine ⟨fun h => ?sneReg, fun h => ?ldI, fun h => ?jpV0, fun h => ?rnd, fun h => ?drw, nofun⟩
  case sneReg =>
    have hmajor := toNat_fieldMajor_of_mask h (by decide)
    have hn := fieldN_of_mask h (by decide)
    simp [decodeWord, hmajor, hn, Instr.mnemonic]
  all_goals
    have hmajor := toNat_fieldMajor_of_mask h (by decide)
    simp [decodeWord, hmajor, Instr.mnemonic]

theorem selectedByRow_minor (op : Word) : ∀ r ∈ opcodeRowsMinor, SelectedByRow op r := by
  simp only [opcodeRowsMinor, List.forall_mem_cons]
  and_intros
  on_goal 12 => exact nofun
  all_goals
    intro h
    have hmajor := toNat_fieldMajor_of_mask h (by decide)
    have hkk := fieldKk_of_mask h (by decide)
    simp [decodeWord, decodeGroupE, decodeGroupF, hmajor, hkk, Instr.mnemonic]

/-- A row that matches a word is the row of the instruction the word decodes to. -/
theorem selectedByRow_of_mem (op : Word) : ∀ r ∈ opcodeRows, SelectedByRow op r := by
  intro r hr
  simp only [opcodeRows, List.mem_append] at hr
  rcases hr with ((hr | hr) | hr) | hr
  · exact selectedByRow_plain op r hr
  · exact selectedByRow_arith op r hr
  · exact selectedByRow_rest op r hr
  · exact selectedByRow_minor op r hr

theorem nodup_mnemonic_opcodeRows : (opcodeRows.map OpcodeRow.mnemonic).Nodup := by decide

/-- Two rows that match one word are one row: both bear the id of the instruction the word decodes to, and no two rows
bear the same id. -/
theorem row_unique {op : Word} {r q : OpcodeRow} (hr : r ∈ opcodeRows) (hq : q ∈ opcodeRows)
    (hrm : op &&& r.mask = r.value) (hqm : op &&& q.mask = q.value) : r = q := by
  obtain ⟨i, hi, hir⟩ := selectedByRow_of_mem op r hr hrm
  obtain ⟨j, hj, hjq⟩ := selectedByRow_of_mem op q hq hqm
  have hij : i = j := Option.some.inj (hi.symm.trans hj)
  exact List.inj_on_of_nodup_map nodup_mnemonic_opcodeRows hr hq (by rw [← hir, hij, hjq])

/-- Settles O4: the row of the decoded instruction matches, a row that matches is that of the decoded instruction, and
so no second row does. -/
theorem decodeAgreesWithMaskMatchTable : Obligations.DecodeAgreesWithMaskMatchTable := fun op =>
  ⟨fun _ h => exists_row_of_decodeWord h, selectedByRow_of_mem op, fun _ hr _ hq => row_unique hr hq⟩

/-! ### The words that select no instruction -/

theorem fieldKk_eq_iff (op : Word) (kk : Byte) : fieldKk op = kk ↔ op.toNat % 256 = kk.toNat := by
  rw [← BitVec.toNat_inj, toNat_fieldKk]

theorem decodeGroup0_eq_none {op : Word} : decodeGroup0 op = none ↔ op.toNat ≠ 0x00E0 ∧ op.toNat ≠ 0x00EE := by
  simp [decodeGroup0, ite_eq_iff, ← BitVec.toNat_inj]

theorem decodeGroup8_eq_none {op : Word} :
    decodeGroup8 op = none ↔ op.toNat % 16 ∈ [0x8, 0x9, 0xA, 0xB, 0xC, 0xD, 0xF] := by
  have hlt : op.toNat % 16 < 16 := Nat.mod_lt _ (by decide)
  rw [decodeGroup8, fieldN_eq]
  generalize op.toNat % 16 = n at hlt
  interval_cases n <;> simp

theorem decodeGroupE_eq_none {op : Word} : decodeGroupE op = none ↔ op.toNat % 256 ∉ [0x9E, 0xA1] := by
  simp [decodeGroupE, ite_eq_iff, fieldKk_eq_iff]

theorem decodeGroupF_eq_none {op : Word} :
    decodeGroupF op = none ↔ op.toNat % 256 ∉ [0x07, 0x0A, 0x15, 0x18, 0x1E, 0x29, 0x33, 0x55, 0x65] := by
  simp [decodeGroupF, ite_eq_iff, fieldKk_eq_iff]

/-- Settles O5, by cases on the first nibble: in each group the decoder's own test is the one of the listed set. -/
theorem unmatchedWordsAreTheListedSets : Obligations.UnmatchedWordsAreTheListedSets := by
  intro op
  have hlt : op.toNat / 4096 < 16 := by have := op.isLt; omega
  rw [decodeWord, toNat_fieldMajor]
  generalize op.toNat / 4096 = major at hlt
  match major, hlt with
  | 0, _ => simp [decodeGroup0_eq_none]
  | 5, _ | 9, _ => simp [fieldN_eq]
  | 8, _ => simp [decodeGroup8_eq_none]
  | 14, _ => simp [decodeGroupE_eq_none]
  | 15, _ => simp [decodeGroupF_eq_none]
  | 1, _ | 2, _ | 3, _ | 4, _ | 6, _ | 7, _ | 10, _ | 11, _ | 12, _ | 13, _ => simp
  | n + 16, hge => omega

end Sys2Proof

/-! The step cycle (40_step_cycle.md): the word a step fetches, the instruction it executes, the tick, and what a call
that ends with an error answers. -/

namespace Sys2Proof.Machine

/-! ### Fetch -/

theorem State.wordAtPc_lt (s : State) : s.wordAtPc < 2 ^ 16 := by
  unfold State.wordAtPc; omega

/-- Where a word can be fetched, it is the word at PC. -/
theorem fetch_eq_wordAtPc {s : State} (hpc : s.pc.toNat ≤ 0xFFE) : fetch s = .ok (BitVec.ofNat 16 s.wordAtPc) := by
  rw [fetch_ok hpc]
  congr 1
  apply BitVec.eq_of_toNat_eq
  rw [toNat_wordOfBytes, BitVec.toNat_ofNat, Nat.mod_eq_of_lt s.wordAtPc_lt, State.wordAtPc]

/-! ### The three ways a step goes -/

theorem step_of_fetch_error {s : State} {f : Fault} (h : fetch s = .error f) : step s = .fault f := by
  unfold step; rw [h]; rfl

/-- A step from a state that selects an instruction executes it and ends. -/
theorem State.Selects.step_eq {s : State} {i : Instr} (h : s.Selects i) : step s = finishStep (exec i s) := by
  obtain ⟨hpc, hdecode⟩ := h
  simp only [step, fetch_eq_wordAtPc hpc, hdecode]

/-- A step from a state whose word at PC decodes to nothing raises UnknownOpcode (R172). -/
theorem step_of_decodeWord_none {s : State} (hpc : s.pc.toNat ≤ 0xFFE)
    (h : decodeWord (BitVec.ofNat 16 s.wordAtPc) = none) :
    step s = .fault (.unknownOpcode (BitVec.ofNat 16 s.wordAtPc)) := by
  simp only [step, fetch_eq_wordAtPc hpc, h]; rfl

/-! ### The tick -/

theorem countDown_eq_ofNat (b : Byte) : countDown b = BitVec.ofNat 8 (b.toNat - 1) := by
  rw [← toNat_countDown, BitVec.ofNat_toNat, BitVec.setWidth_eq]

/-- The tick, as a record of the timers' numbers. -/
theorem State.tick_eq_ofNat (s : State) :
    s.tick = { s with dt := BitVec.ofNat 8 (s.dt.toNat - 1), st := BitVec.ofNat 8 (s.st.toNat - 1) } := by
  rw [State.tick, countDown_eq_ofNat, countDown_eq_ofNat]

/-! ### What the host is answered -/

theorem stepCall_of_next {s t : State} (h : step s = .next t) : stepCall s = (t, .next ()) := by
  rw [stepCall, h]; rfl

theorem stepCall_of_fault {s : State} {f : Fault} (h : step s = .fault f) : stepCall s = (s, .fault f) := by
  rw [stepCall, h]; rfl

/-! ### Settled statements -/

/-- Settles O6: the word of the two bytes is the word at PC, so the state selects the instruction. -/
theorem stepRunsTheDecodedInstruction : Obligations.StepRunsTheDecodedInstruction := by
  intro s op i hpc hop hdecode
  have hword : BitVec.ofNat 16 s.wordAtPc = op := by
    rw [State.wordAtPc, ← hop, BitVec.ofNat_toNat, BitVec.setWidth_eq]
  have hselects : s.Selects i := ⟨hpc, hword.symm ▸ hdecode⟩
  rw [hselects.step_eq]
  cases exec i s with
  | next t => exact congrArg Host.Outcome.next t.tick_eq_ofNat
  | fault f => rfl
  | refused r => rfl

/-- Settles O7: the fault is fetch's. -/
theorem fetchAboveTheTopRaises : Obligations.FetchAboveTheTopRaises := fun s hpc => by
  have hstep := step_of_fetch_error (fetch_error hpc)
  exact ⟨hstep, congrArg Prod.fst (stepCall_of_fault hstep)⟩

/-- Settles O8: a word that decodes is matched by a row of the table, so this one does not decode. -/
theorem unmatchedWordRaisesUnknownOpcode : Obligations.UnmatchedWordRaisesUnknownOpcode := by
  intro s op hpc hop hrows
  have hword : op = BitVec.ofNat 16 s.wordAtPc := by
    rw [← hop, BitVec.ofNat_toNat, BitVec.setWidth_eq]
  have hnone : decodeWord op = none := by
    by_contra hsome
    obtain ⟨i, hi⟩ := Option.ne_none_iff_exists'.1 hsome
    obtain ⟨r, hr, -, hmatch⟩ := exists_row_of_decodeWord hi
    exact hrows r hr hmatch
  have hstep : step s = .fault (.unknownOpcode op) := by
    subst hword; exact step_of_decodeWord_none hpc hnone
  exact ⟨hstep, stepCall_of_fault hstep⟩

/-- Settles O9: a successful step ends in the tick of what its instruction left, a failing one in the state before. -/
theorem tickEndsEverySuccessfulStep : Obligations.TickEndsEverySuccessfulStep := by
  refine ⟨fun s t h => ?_, fun s f h => ?_⟩
  · obtain ⟨i, u, hselects, hexec, rfl⟩ := step_next_selects h
    exact ⟨i, u, hselects, hexec, toNat_countDown u.dt, toNat_countDown u.st, rfl⟩
  · rw [stepCall_of_fault h]; exact ⟨rfl, rfl⟩

/-- Settles O48: the two bytes at 0x200 are zero after reset, and no row of the table matches their word. -/
theorem firstStepAfterResetRaises : Obligations.FirstStepAfterResetRaises :=
  (unmatchedWordRaisesUnknownOpcode State.reset 0x0000#16 (by decide) (by decide) (by decide)).2

end Sys2Proof.Machine

/-! The frames of the whole machine (10_state.md): which registers, which bytes of memory and which other fields an
instruction that completes may change. -/

namespace Sys2Proof.Machine

/-! ### Registers -/

/-- A flag-writing ALU instruction changes its destination and VF. -/
theorem State.reg_writeFlagged_ne (s : State) {x r : Reg} (f : Bool) (b : Byte) (hr : ¬ (r = x ∨ r = 15)) :
    (s.writeFlagged x f b).reg r = s.reg r := by
  obtain ⟨hx, hvf⟩ := not_or.1 hr
  rw [State.reg_writeFlagged, if_neg hx, if_neg hvf]

/-- Settles O12, by cases on the instruction: a register write, a flag and a register write, a block of registers, or
none. -/
theorem otherRegistersAreUnchanged : Obligations.OtherRegistersAreUnchanged := by
  intro i s t r h hr
  cases i with
  | ldImm x _ | addImm x _ | ldReg x _ | orReg x _ | andReg x _ | xorReg x _ | rnd x _ | ldVxDt x =>
    cases h; exact s.reg_setReg_ne _ hr
  | addReg x _ | sub x _ | shr x _ | subn x _ | shl x _ => cases h; exact s.reg_writeFlagged_ne _ _ hr
  | ldVxK x =>
    obtain rfl | ⟨b, rfl⟩ := execLdVxK_next h
    · rfl
    · exact s.reg_setReg_ne b hr
  | drw x y n => obtain ⟨b, fb, rfl⟩ := execDrw_next h; exact s.reg_setReg_ne b hr
  | ldRegs x =>
    obtain ⟨-, hnext⟩ := guardAccess_next h
    have hgt : ¬ r.val < x.val + 1 := fun hlt => hr (Nat.le_of_lt_succ hlt)
    cases hnext; exact (getElem_loadBlock s.mem s.baseI s.v (x.val + 1) r.val r.isLt).trans (if_neg hgt)
  | call nnn => obtain ⟨_, _, rfl⟩ := execCall_next h; rfl
  | ret => obtain ⟨_, _, rfl⟩ := execRet_next h; rfl
  | skp x => obtain ⟨_, -, rfl⟩ := execSkp_next h; rfl
  | sknp x => obtain ⟨_, -, rfl⟩ := execSknp_next h; rfl
  | ldB x | stRegs x => obtain ⟨-, hnext⟩ := guardAccess_next h; cases hnext; rfl
  | _ => cases h; rfl

/-! ### Memory -/

/-- The bytes an instruction stores at I and on (R144, R145): none but for store-BCD and register-dump. -/
def storedBytes : Instr → State → List Byte
  | .ldB x, s => bcdDigits (s.reg x)
  | .stRegs x, s => s.regBlock x
  | _, _ => []

/-- An instruction that completes leaves memory with its bytes stored at I, all of them inside RAM. -/
theorem exec_next_mem {i : Instr} {s t : State} (h : exec i s = .next t) :
    t.mem = s.mem.writeBytes s.baseI (storedBytes i s) ∧
      (storedBytes i s = [] ∨ s.baseI + (storedBytes i s).length ≤ Config.memSize) := by
  have hkept (he : storedBytes i s = []) (hm : t.mem = s.mem) :
      t.mem = s.mem.writeBytes s.baseI (storedBytes i s) ∧
        (storedBytes i s = [] ∨ s.baseI + (storedBytes i s).length ≤ Config.memSize) := by
    rw [he]; exact ⟨hm, .inl rfl⟩
  cases i with
  | ldB x =>
    obtain ⟨hram, hnext⟩ := guardAccess_next h
    cases hnext; exact ⟨rfl, .inr (hram.resolve_left (by decide))⟩
  | stRegs x =>
    obtain ⟨hram, hnext⟩ := guardAccess_next h
    rw [← s.length_regBlock x] at hram
    cases hnext; exact ⟨rfl, .inr (hram.resolve_left (by simp))⟩
  | ldRegs x => obtain ⟨-, hnext⟩ := guardAccess_next h; cases hnext; exact hkept rfl rfl
  | call nnn => obtain ⟨_, _, rfl⟩ := execCall_next h; exact hkept rfl rfl
  | ret => obtain ⟨_, _, rfl⟩ := execRet_next h; exact hkept rfl rfl
  | skp x => obtain ⟨_, -, rfl⟩ := execSkp_next h; exact hkept rfl rfl
  | sknp x => obtain ⟨_, -, rfl⟩ := execSknp_next h; exact hkept rfl rfl
  | ldVxK x => obtain rfl | ⟨_, rfl⟩ := execLdVxK_next h <;> exact hkept rfl rfl
  | drw x y n => obtain ⟨_, _, rfl⟩ := execDrw_next h; exact hkept rfl rfl
  | _ => cases h; exact hkept rfl rfl

theorem storesTo_iff (i : Instr) (s : State) (a : Nat) :
    StoresTo i s a ↔ s.baseI ≤ a ∧ a < s.baseI + (storedBytes i s).length := by
  cases i with
  | ldB x => rfl
  | stRegs x => rw [storedBytes, State.length_regBlock]; rfl
  | _ => simp [StoresTo, storedBytes]

/-- Settles O14: a byte outside the run of bytes stored reads as before. -/
theorem otherMemoryIsUnchanged : Obligations.OtherMemoryIsUnchanged := by
  intro i s t a h ha
  rw [storesTo_iff] at ha
  rw [(exec_next_mem h).1, Memory.read_writeBytes, if_neg ha]

/-! ### The other fields -/

/-- Settles O15, by cases on the instruction: what it left is written out, and each field it names is its own. -/
theorem specialStateIsWrittenOnlyByTheNamedInstructions :
    Obligations.SpecialStateIsWrittenOnlyByTheNamedInstructions := by
  intro i s t h
  cases i with
  | call nnn => obtain ⟨_, _, rfl⟩ := execCall_next h; simp
  | ret => obtain ⟨_, _, rfl⟩ := execRet_next h; simp
  | skp x => obtain ⟨_, -, rfl⟩ := execSkp_next h; simp
  | sknp x => obtain ⟨_, -, rfl⟩ := execSknp_next h; simp
  | ldVxK x => obtain rfl | ⟨_, rfl⟩ := execLdVxK_next h <;> simp
  | drw x y n => obtain ⟨_, _, rfl⟩ := execDrw_next h; simp
  | ldB x | stRegs x | ldRegs x => obtain ⟨-, hnext⟩ := guardAccess_next h; cases hnext; simp
  | _ => cases h; simp

end Sys2Proof.Machine

/-! The call stack as a whole (10_state.md section 5), and the invariant of every reachable state (10_state.md R41):
every step and every host action keeps it. -/

namespace Sys2Proof.Machine

/-! ### Call and return -/

/-- A call that completes found a free entry and pushed PC + 2 there. -/
theorem execCall_next_push {nnn : Addr12} {s t : State} (h : execCall nnn s = .next t) :
    ∃ hs : s.sp.val < 16, t = { s with
      stack := s.stack.set s.sp.val (s.pc + 2#16) hs
      sp := ⟨s.sp.val + 1, Nat.succ_lt_succ hs⟩
      pc := addrOf nnn } := by
  rcases (Nat.lt_succ_iff.1 s.sp.isLt).lt_or_eq with hs | hs
  · rw [execCall_of_sp_lt nnn hs] at h; cases h; exact ⟨hs, rfl⟩
  · rw [execCall_of_sp_eq nnn hs] at h; cases h

/-- A return with a live entry completes: the newest one goes to PC, and stays in the array, dead. -/
theorem execRet_of_sp_succ {s : State} {k : Fin 16} (hk : s.sp.val = k.val + 1) :
    execRet s = .next { s with sp := k.castSucc, pc := s.stack[k.val] } := by
  have hsp : s.sp = ⟨k.val + 1, Nat.succ_lt_succ k.isLt⟩ := Fin.ext hk
  cases s
  cases hsp
  rfl

/-- A return on an empty stack raises StackUnderflow (R32, R102). -/
theorem execRet_of_sp_zero {s : State} (hs : s.sp.val = 0) : execRet s = .fault .stackUnderflow := by
  have hpop : s.pop = .error .stackUnderflow := dif_pos hs
  rw [execRet, hpop]; rfl

/-- A stack that is not empty has a newest live entry. -/
theorem State.sp_eq_zero_or_succ (s : State) : s.sp.val = 0 ∨ ∃ k : Fin 16, s.sp.val = k.val + 1 := by
  rcases Nat.eq_zero_or_pos s.sp.val with hs | hs
  · exact .inl hs
  · exact .inr ⟨⟨s.sp.val - 1, by omega⟩, (Nat.succ_pred_eq_of_pos hs).symm⟩

/-- A return that completes popped the newest live entry. -/
theorem execRet_next_pop {s t : State} (h : execRet s = .next t) :
    ∃ k : Fin 16, s.sp.val = k.val + 1 ∧ t = { s with sp := k.castSucc, pc := s.stack[k.val] } := by
  rcases s.sp_eq_zero_or_succ with hs | ⟨k, hk⟩
  · rw [execRet_of_sp_zero hs] at h; cases h
  · rw [execRet_of_sp_succ hk] at h; cases h; exact ⟨k, hk, rfl⟩

/-- Settles O18: the two outcomes of a return. -/
theorem returnPopsTheReturnAddress : Obligations.ReturnPopsTheReturnAddress := fun _ =>
  ⟨fun _ hk => ⟨_, execRet_of_sp_succ hk, rfl, rfl, rfl⟩, execRet_of_sp_zero⟩

/-- Settles O19: the entry the return reads is the one the call pushed. -/
theorem returnUndoesCall : Obligations.ReturnUndoesCall := by
  intro nnn s t u h hsp hstack
  obtain ⟨hs, rfl⟩ := execCall_next_push h
  have hk : u.sp.val = (⟨s.sp.val, hs⟩ : Fin 16).val + 1 := congrArg Fin.val hsp
  refine ⟨_, execRet_of_sp_succ hk, ?_, rfl⟩
  simp only [hstack, Vector.getElem_set_self]

/-! ### The invariant -/

/-- Every live stack entry is at most 0x1000: the last clause of `State.Inv`. -/
def State.LiveStackLe (s : State) : Prop := ∀ k : Fin 16, k.val < s.sp.val → s.stack[k.val].toNat ≤ 0x1000

theorem exec_next_mem_wf {i : Instr} {s t : State} (hwf : s.mem.wf = true) (h : exec i s = .next t) :
    t.mem.wf = true := by
  obtain ⟨hmem, hempty | hram⟩ := exec_next_mem h
  · rw [hempty] at hmem; rw [hmem]; exact hwf
  · rw [hmem]; exact Memory.wf_writeBytes _ _ _ hwf hram

/-- The values R24 lists for PC are at most 0x10FE: a target, a target and a byte, a live stack entry, or a PC a word
was fetched from and 4. -/
theorem PcAfter.le {i : Instr} {s : State} {p : Nat} (hpc : s.pc.toNat ≤ 0xFFE) (hlive : s.LiveStackLe)
    (h : PcAfter i s p) : p ≤ 0x10FE := by
  have hskip {q : Prop} [Decidable q] {a b : Nat} (ha : a ≤ 4) (hb : b ≤ 4)
      (hp : p = s.pc.toNat + if q then a else b) : p ≤ 0x10FE := by split at hp <;> omega
  cases i with
  | jp nnn | call nnn => have := nnn.isLt; unfold PcAfter at h; omega
  | jpV0 nnn => have := nnn.isLt; have := (s.reg 0).isLt; unfold PcAfter at h; omega
  | ret =>
    obtain ⟨k, hk, rfl⟩ := h
    exact (hlive k (by omega)).trans (by decide)
  | seImm _ _ | sneImm _ _ | seReg _ _ | sneReg _ _ | ldVxK _ => exact hskip (by decide) (by decide) h
  | skp _ | sknp _ => obtain ⟨k, -, hp⟩ := h; exact hskip (by decide) (by decide) hp
  | _ => unfold PcAfter at h; omega

/-- The address a call pushes follows an instruction that was fetched, so it is at most 0x1000; a return makes an entry
dead; no other instruction touches the stack. -/
theorem exec_next_liveStackLe {i : Instr} {s t : State} (hpc : s.pc.toNat ≤ 0xFFE) (hlive : s.LiveStackLe)
    (h : exec i s = .next t) : t.LiveStackLe := by
  have hspecial := specialStateIsWrittenOnlyByTheNamedInstructions i s t h
  obtain ⟨-, -, -, hsp, hstack, -⟩ := hspecial
  intro k hk
  cases i with
  | call nnn =>
    obtain ⟨hs, rfl⟩ := execCall_next_push h
    by_cases hnew : k.val = s.sp.val
    · have hret := State.toNat_advance_pc hpc
      simp only [hnew, Vector.getElem_set_self]
      rw [State.advance_pc] at hret; omega
    · have hold : k.val < s.sp.val := lt_of_le_of_ne (Nat.le_of_lt_succ hk) hnew
      simpa only [Vector.getElem_set_ne _ _ (Ne.symm hnew)] using hlive k hold
  | ret =>
    obtain ⟨j, hj, rfl⟩ := execRet_next_pop h
    have hlt : k.val < j.val := hk
    exact hlive k (by omega)
  | _ =>
    rw [hsp nofun nofun] at hk
    simpa only [hstack nofun] using hlive k hk

/-- The tick touches no field the invariant speaks of. -/
theorem State.inv_tick {s : State} (h : s.Inv) : s.tick.Inv := h

/-- Settles O42: the three clauses after the executed instruction, and then the tick. -/
theorem stepKeepsTheInvariant : Obligations.StepKeepsTheInvariant := by
  intro s t hinv hstep
  obtain ⟨hwf, -, hlive⟩ := hinv
  obtain ⟨i, u, ⟨hpc, -⟩, hexec, rfl⟩ := step_next_selects hstep
  exact State.inv_tick ⟨exec_next_mem_wf hwf hexec, (exec_next_pcAfter hpc hexec).le hpc hlive,
    exec_next_liveStackLe hpc hlive hexec⟩

/-- Settles O43: nothing is listed in memory and the stack is empty. -/
theorem resetMeetsTheInvariant : Obligations.ResetMeetsTheInvariant :=
  ⟨State.reset_mem_wf, by decide, fun _ hk => absurd hk (Nat.not_lt_zero _)⟩

/-- An image that is loaded has at most 3584 bytes, and they go to memory at 0x200. -/
theorem loadImage_of_length_le {bytes : List Byte} (h : bytes.length ≤ 0xE00) (s : State) :
    loadImage bytes s = .next { s with mem := s.mem.writeBytes 0x200 bytes } := if_neg (Nat.not_lt.2 h)

theorem loadImage_of_length_gt {bytes : List Byte} (h : 0xE00 < bytes.length) (s : State) :
    loadImage bytes s = .fault .romTooLarge := if_pos h

/-- Settles O44: a FONT of 80 bytes and an image of at most 3584 lie inside RAM; keys and redraw are in no clause. -/
theorem hostActionsKeepTheInvariant : Obligations.HostActionsKeepTheInvariant := by
  intro a s t hinv h
  cases a with
  | reset font =>
    obtain ⟨hwf, hpc, hlive⟩ := resetMeetsTheInvariant
    have hram : 0 + font.toList.length ≤ Config.memSize := by
      rw [Vector.length_toList]; decide
    cases h; exact ⟨Memory.wf_writeBytes _ _ _ hwf hram, hpc, hlive⟩
  | load bytes =>
    obtain ⟨hwf, hpc, hlive⟩ := hinv
    rcases Nat.lt_or_ge 0xE00 bytes.length with hlen | hlen
    · cases (loadImage_of_length_gt hlen s).symm.trans h
    · have hram : 0x200 + bytes.length ≤ 0x1000 := by omega
      cases (loadImage_of_length_le hlen s).symm.trans h
      exact ⟨Memory.wf_writeBytes _ _ _ hwf hram, hpc, hlive⟩
  | writeKeys keys => cases h; exact hinv
  | clearRedraw => cases h; exact hinv

end Sys2Proof.Machine

/-! The ALU instructions that write a flag, the random byte, add-to-index, and the timer instructions (42_alu.md,
43_index_memory.md, 45_keypad_timers.md). -/

namespace Sys2Proof.Machine

/-! ### Flags and differences as numbers -/

theorem toNat_flagByte (c : Bool) : (flagByte c).toNat = c.toNat := by cases c <;> rfl

theorem toNat_flagByte_decide (p : Prop) [Decidable p] : (flagByte (decide p)).toNat = if p then 1 else 0 := by
  by_cases h : p
  · rw [decide_eq_true h, if_pos h]; rfl
  · rw [decide_eq_false h, if_neg h]; rfl

/-- A bit of a byte, as a flag. -/
theorem toNat_flagByte_getLsbD (b : Byte) (k : Nat) : (flagByte (b.getLsbD k)).toNat = b.toNat / 2 ^ k % 2 := by
  rw [toNat_flagByte, BitVec.getLsbD, Nat.toNat_testBit]

theorem toNat_sub_int (a b : Byte) : ((a - b).toNat : Int) = (a.toNat - b.toNat : Int) % 256 := by
  rw [BitVec.toNat_sub]; omega

theorem toNat_ushiftRight_one (b : Byte) : (b >>> 1).toNat = b.toNat / 2 := by
  rw [BitVec.toNat_ushiftRight, Nat.shiftRight_eq_div_pow, pow_one]

theorem toNat_shiftLeft_one (b : Byte) : (b <<< 1).toNat = 2 * b.toNat % 256 := by
  rw [BitVec.toNat_shiftLeft, Nat.shiftLeft_eq, pow_one, Nat.mul_comm]

/-! ### The flag-writing ALU instructions -/

/-- An instruction that writes a flag to VF, then `b` to V[x], and advances: what holds of `b` holds of the new V[x],
what holds of the flag holds of the new VF where x is not F, and no other register and no other field changes. -/
theorem exists_next_of_writeFlagged_advance {o : Result} {s : State} {x : Reg} {f : Bool} {b : Byte}
    (P Q : Byte → Prop) (ho : o = .next (s.writeFlagged x f b).advance) (hb : P b) (hf : Q (flagByte f)) :
    ∃ t, o = .next t ∧ P (t.reg x) ∧ (x ≠ 15 → Q (t.reg 15)) ∧ (∀ r, r ≠ x → r ≠ 15 → t.reg r = s.reg r) ∧
      t.pc = s.pc + 2#16 ∧ t = { s with v := t.v, pc := t.pc } := by
  refine ⟨_, ho, ?_, fun hx => ?_, fun r hx hvf => ?_, rfl, rfl⟩
  · rwa [State.reg_advance, State.reg_writeFlagged, if_pos rfl]
  · rwa [State.reg_advance, State.reg_writeFlagged, if_neg hx.symm, if_pos rfl]
  · exact s.reg_writeFlagged_ne f b (not_or.2 ⟨hx, hvf⟩)

/-- Settles O24: the byte written is the wrapped sum, the flag the comparison of the whole sum with 255. -/
theorem addRegistersSetsCarry : Obligations.AddRegistersSetsCarry := fun x y s =>
  exists_next_of_writeFlagged_advance (fun v => v.toNat = ((s.reg x).toNat + (s.reg y).toNat) % 256)
    (fun v => v.toNat = if (s.reg x).toNat + (s.reg y).toNat > 255 then 1 else 0) rfl
    (BitVec.toNat_add (s.reg x) (s.reg y)) (toNat_flagByte_decide _)

/-- Settles O25: the byte written is the wrapped difference, the flag the strict comparison. -/
theorem subtractionsSetTheStrictFlag : Obligations.SubtractionsSetTheStrictFlag := fun x y s =>
  ⟨exists_next_of_writeFlagged_advance (fun v => (v.toNat : Int) = ((s.reg x).toNat - (s.reg y).toNat : Int) % 256)
      (fun v => v.toNat = if (s.reg x).toNat > (s.reg y).toNat then 1 else 0) rfl
      (toNat_sub_int (s.reg x) (s.reg y)) (toNat_flagByte_decide _),
    exists_next_of_writeFlagged_advance (fun v => (v.toNat : Int) = ((s.reg y).toNat - (s.reg x).toNat : Int) % 256)
      (fun v => v.toNat = if (s.reg y).toNat > (s.reg x).toNat then 1 else 0) rfl
      (toNat_sub_int (s.reg y) (s.reg x)) (toNat_flagByte_decide _)⟩

/-- Settles O26: the flag is bit 0 or bit 7 of the old byte. -/
theorem shiftsSetTheBitShiftedOut : Obligations.ShiftsSetTheBitShiftedOut := fun x _ s => by
  have hlow : (flagByte (lowBit (s.reg x))).toNat = (s.reg x).toNat % 2 := by
    rw [lowBit, toNat_flagByte_getLsbD, pow_zero, Nat.div_one]
  have hhigh : (flagByte (highBit (s.reg x))).toNat = (s.reg x).toNat / 128 := by
    rw [highBit, toNat_flagByte_getLsbD]; omega
  exact ⟨exists_next_of_writeFlagged_advance (fun v => v.toNat = (s.reg x).toNat / 2)
      (fun v => v.toNat = (s.reg x).toNat % 2) rfl (toNat_ushiftRight_one (s.reg x)) hlow,
    exists_next_of_writeFlagged_advance (fun v => v.toNat = 2 * (s.reg x).toNat % 256)
      (fun v => v.toNat = (s.reg x).toNat / 128) rfl (toNat_shiftLeft_one (s.reg x)) hhigh⟩

/-! ### The random byte and add-to-index -/

/-- Settles O27: a bit of the mask that is zero is zero in the conjunction. -/
theorem randomIsMaskedFreeByte : Obligations.RandomIsMaskedFreeByte := fun x kk s => by
  have hx : (s.setReg x (Config.rnd s.rndCount &&& kk)).reg x = Config.rnd s.rndCount &&& kk := s.reg_setReg_same x _
  refine ⟨_, rfl, hx, fun k hk => ?_, rfl, fun r hr => s.reg_setReg_ne _ hr, rfl, rfl⟩
  exact (congrArg (·.getLsbD k) hx).trans (by rw [BitVec.getLsbD_and, hk, Bool.and_false])

/-- Settles O29: the word that goes to I is a sum of 16-bit words, which wraps modulo 65536. -/
theorem addToIndexKeepsSixteenBits : Obligations.AddToIndexKeepsSixteenBits := fun x s => by
  refine exists_next_of_setI_advance (·.toNat = (s.i.toNat + (s.reg x).toNat) % 65536) rfl ?_
  rw [BitVec.toNat_add, toNat_wideOf]

/-! ### Timers -/

/-- The sound is on after the tick exactly when ST stood above 1. -/
theorem soundOn_tick (s : State) : s.tick.soundOn = true ↔ 1 < s.st.toNat := by
  rw [State.soundOn, decide_eq_true_eq, BitVec.lt_def, State.tick_st, toNat_countDown]
  exact Nat.sub_pos_iff_lt

/-- Settles O41: each instruction writes one register or one timer, and the tick counts down what it left. -/
theorem timersAreReadAndSetBeforeTheTick : Obligations.TimersAreReadAndSetBeforeTheTick := fun x s =>
  ⟨⟨_, rfl, s.reg_setReg_same x s.dt, toNat_countDown s.dt, fun _ hr => s.reg_setReg_ne s.dt hr, rfl, rfl⟩,
    ⟨_, rfl, rfl, toNat_countDown (s.reg x), rfl, rfl⟩,
    ⟨_, rfl, rfl, toNat_countDown (s.reg x), soundOn_tick _, rfl, rfl⟩⟩

end Sys2Proof.Machine

/-! Loads and stores through I (43_index_memory.md): store-BCD, register-dump and register-load, each with its test. -/

namespace Sys2Proof.Machine

/-! ### Bytes that were written -/

/-- The `k`-th byte of a run that was written reads back. -/
theorem Memory.read_writeBytes_add (m : Memory) (base : Nat) {bs : List Byte} {k : Nat} (hk : k < bs.length) :
    (m.writeBytes base bs).read (base + k) = bs.getD k 0#8 := by
  rw [Memory.read_writeBytes, if_pos ⟨Nat.le_add_right base k, Nat.add_lt_add_left hk base⟩, Nat.add_sub_cancel_left]

/-- An address outside the run reads as before. -/
theorem Memory.read_writeBytes_out (m : Memory) {base a : Nat} {bs : List Byte}
    (ha : ¬ (base ≤ a ∧ a < base + bs.length)) : (m.writeBytes base bs).read a = m.read a := by
  rw [Memory.read_writeBytes, if_neg ha]

/-! ### The test of an access through I -/

/-- An access to I to I + `last` goes on when its last address lies in RAM. -/
theorem guardAccess_baseI_ok {s : State} {last : Nat} {go : Result} (h : s.i.toNat + last ≤ 0xFFF) :
    guardAccess s.baseI (last + 1) go = go :=
  guardAccess_ok (.inr (Nat.succ_le_succ h))

theorem guardAccess_baseI_fault {s : State} {last : Nat} {go : Result} (h : 0xFFF < s.i.toNat + last) :
    guardAccess s.baseI (last + 1) go = .fault (.memoryOutOfRange (max s.i.toNat 0x1000)) :=
  guardAccess_fault (Nat.succ_pos last) (Nat.succ_lt_succ h)

/-- An access through I that went on has its last address in RAM. -/
theorem guardAccess_baseI_next {s t : State} {last : Nat} {go : Result}
    (h : guardAccess s.baseI (last + 1) go = .next t) : s.i.toNat + last ≤ 0xFFF ∧ go = .next t := by
  obtain ⟨hram, hgo⟩ := guardAccess_next h
  exact ⟨Nat.le_of_succ_le_succ (hram.resolve_left (Nat.succ_ne_zero last)), hgo⟩

/-! ### Store-BCD -/

/-- Settles O30: the digits of a byte are below 256, so each is its byte, and the three are stored from I on. -/
theorem storeBcdWritesThreeDigits : Obligations.StoreBcdWritesThreeDigits := by
  intro x s
  have hdigit (n : Nat) (hn : n ≤ (s.reg x).toNat) : (BitVec.ofNat 8 n).toNat = n := by
    have := (s.reg x).isLt
    rw [BitVec.toNat_ofNat]; omega
  have hread {k : Nat} (hk : k < 3) := s.mem.read_writeBytes_add s.baseI (bs := bcdDigits (s.reg x)) hk
  refine ⟨fun h => ⟨_, guardAccess_baseI_ok h, ?_, ?_, ?_, fun a ha => s.mem.read_writeBytes_out ha, rfl, rfl⟩,
    guardAccess_baseI_fault⟩
  · exact (congrArg BitVec.toNat (hread (k := 0) (by decide))).trans (hdigit _ (by omega))
  · exact (congrArg BitVec.toNat (hread (k := 1) (by decide))).trans (hdigit _ (by omega))
  · exact (congrArg BitVec.toNat (hread (k := 2) (by decide))).trans (hdigit _ (by omega))

/-! ### Register-dump -/

/-- A register-dump that completes has its whole block in RAM and stores it there. -/
theorem execStRegs_next {x : Reg} {s t : State} (h : execStRegs x s = .next t) :
    s.i.toNat + x.val ≤ 0xFFF ∧ t = { s with mem := s.mem.writeBytes s.baseI (s.regBlock x) }.advance := by
  obtain ⟨hram, hnext⟩ := guardAccess_baseI_next h
  cases hnext; exact ⟨hram, rfl⟩

/-- The byte at I + k of a stored block is V[k]. -/
theorem State.read_regBlock (s : State) {x k : Reg} (hk : k ≤ x) :
    (s.mem.writeBytes s.baseI (s.regBlock x)).read (s.baseI + k.val) = s.reg k := by
  have hlt : k.val < (s.regBlock x).length := by
    rw [State.length_regBlock]; exact Nat.lt_succ_of_le hk
  rw [Memory.read_writeBytes_add _ _ hlt, State.getD_regBlock s x k hk]

/-- Settles O31: the block is stored from I on, and nothing else is written. -/
theorem registerDumpStoresTheBlock : Obligations.RegisterDumpStoresTheBlock := fun x s =>
  ⟨fun h => ⟨_, guardAccess_baseI_ok h, fun _ hk => s.read_regBlock hk,
      fun _ ha => s.mem.read_writeBytes_out (by rwa [State.length_regBlock]), rfl, rfl⟩,
    guardAccess_baseI_fault⟩

/-! ### Register-load -/

/-- Settles O32: the registers up to V[x] are loaded, the others kept. -/
theorem registerLoadReadsTheBlock : Obligations.RegisterLoadReadsTheBlock := by
  intro x s
  refine ⟨fun h => ⟨_, guardAccess_baseI_ok h, fun r => ?_, rfl, rfl⟩, guardAccess_baseI_fault⟩
  refine (getElem_loadBlock s.mem s.baseI s.v (x.val + 1) r.val r.isLt).trans ?_
  simp only [Nat.lt_succ_iff, Fin.le_def]; rfl

/-- Settles O33: the load reads the block where the dump stored it. -/
theorem registerLoadReadsBackTheDump : Obligations.RegisterLoadReadsBackTheDump := by
  intro x s t u h hmem hi
  obtain ⟨hram, rfl⟩ := execStRegs_next h
  have hbase : u.i.toNat = s.baseI := congrArg BitVec.toNat hi
  obtain ⟨w, hw, hregs, -⟩ := (registerLoadReadsTheBlock x u).1 (hbase ▸ hram)
  refine ⟨w, hw, fun r hr => ?_⟩
  rw [hregs, if_pos hr, hmem, hbase]
  exact s.read_regBlock hr

/-- Settles O34: the next PC is I, and the two bytes stored there are V0 and V1. -/
theorem nextFetchSeesTheStore : Obligations.NextFetchSeesTheStore := by
  intro x s t hx hi h
  obtain ⟨hram, rfl⟩ := execStRegs_next h
  have h0 : (0 : Reg) ≤ x := Fin.zero_le x
  have h1 : (1 : Reg) ≤ x := hx
  have hpc : (State.advance { s with mem := s.mem.writeBytes s.baseI (s.regBlock x) }).pc.toNat = s.baseI :=
    congrArg BitVec.toNat hi.symm
  have htop : s.baseI ≤ 0xFFE := by unfold State.baseI; omega
  refine ⟨_, fetch_ok (hpc ▸ htop), ?_⟩
  rw [toNat_wordOfBytes, hpc]
  have hv0 := s.read_regBlock h0
  have hv1 := s.read_regBlock h1
  exact congrArg₂ (fun a b : Byte => 256 * a.toNat + b.toNat) hv0 hv1

end Sys2Proof.Machine

/-! Draw (44_display.md R151 to R154): its two tests, the pixels it inverts, and the collision it reports. -/

namespace Sys2Proof.Machine

/-! ### The tests of draw -/

theorem execDrw_memory_fault {x y : Reg} {n : Nat} {s : State} (hn : 1 ≤ n) (h : 0xFFF < s.i.toNat + n - 1) :
    execDrw x y n s = .fault (.memoryOutOfRange (max s.i.toNat 0x1000)) :=
  guardAccess_fault hn (by unfold State.baseI; omega)

theorem execDrw_rect_fault {x y : Reg} {n : Nat} {s : State} (hn : 1 ≤ n) (hram : s.i.toNat + n - 1 ≤ 0xFFF)
    (h : 56 < (s.reg x).toNat ∨ 32 < (s.reg y).toNat + n) : execDrw x y n s = .fault .drawOutOfRange := by
  have hrect := (rectFault_eq_some (s.reg x).toNat (s.reg y).toNat n _).2 ⟨hn, h, rfl⟩
  unfold execDrw
  rw [guardAccess_ok (.inr (by unfold State.baseI; omega)), hrect]; rfl

/-- Settles O37: the two tests in their order. -/
theorem drawThatDoesNotFitRaises : Obligations.DrawThatDoesNotFitRaises := fun _ _ _ _ hn =>
  ⟨execDrw_memory_fault hn, execDrw_rect_fault hn⟩

/-- The sprite of `n` rows at I fits at (V[x], V[y]): its bytes lie in RAM and its rectangle in the grid. -/
def SpriteFits (x y : Reg) (n : Nat) (s : State) : Prop :=
  s.i.toNat + n - 1 ≤ 0xFFF ∧ (s.reg x).toNat ≤ 56 ∧ (s.reg y).toNat + n ≤ 32

/-- What a draw leaves: the collision flag in VF, the screen, the redraw flag, and PC + 2. -/
def afterDraw (x y : Reg) (n : Nat) (s : State) : State :=
  let drawn := drawSprite s.mem s.baseI (s.reg x).toNat (s.reg y).toNat n s.fb
  { s.setReg regVF (flagByte drawn.2) with fb := drawn.1, redraw := true }.advance

/-- A sprite of no rows, or one that fits, is drawn. -/
theorem execDrw_of_fits {x y : Reg} {n : Nat} {s : State} (h : 1 ≤ n → SpriteFits x y n s) :
    execDrw x y n s = .next (afterDraw x y n s) := by
  rcases Nat.eq_zero_or_pos n with rfl | hn
  · rfl
  · obtain ⟨hram, hx, hy⟩ := h hn
    have hrect := (rectFault_eq_none (s.reg x).toNat (s.reg y).toNat n).2 (.inr ⟨hx, hy⟩)
    unfold execDrw
    rw [guardAccess_ok (.inr (by unfold State.baseI; omega)), hrect]; rfl

/-- A draw that completes passed both tests. -/
theorem execDrw_next_fits {x y : Reg} {n : Nat} {s t : State} (h : execDrw x y n s = .next t) (hn : 1 ≤ n) :
    SpriteFits x y n s := by
  by_cases hram : s.i.toNat + n - 1 ≤ 0xFFF
  · by_cases hrect : 56 < (s.reg x).toNat ∨ 32 < (s.reg y).toNat + n
    · cases (execDrw_rect_fault hn hram hrect).symm.trans h
    · exact ⟨hram, by omega, by omega⟩
  · cases (execDrw_memory_fault hn (by omega)).symm.trans h

/-! ### The pixels and the collision -/

section
variable {m : Memory} {base cx cy n : Nat} {fb : Framebuffer}

theorem not_spriteCovers_zero {r c : Nat} : ¬ SpriteCovers m base cx cy 0 r c := fun ⟨h1, h2, _⟩ => by omega

/-- The test the drawer's rows amount to is the sprite's cover. -/
theorem spriteBit_and_inside_iff {r c : Nat} :
    (decide (cy ≤ r ∧ r < cy + n ∧ cx ≤ c ∧ c < cx + 8) &&
      spriteBit (m.read (base + (r - cy))) (c - cx)) = true ↔ SpriteCovers m base cx cy n r c := by
  simp [SpriteCovers, spriteBit, and_assoc]

/-- A sprite of no rows, or one whose rectangle lies in the grid, inverts the pixels it covers and no other. -/
theorem pixel_drawSprite (h : 1 ≤ n → cx ≤ 56 ∧ cy + n ≤ 32) (r c : Nat) :
    (SpriteCovers m base cx cy n r c → (drawSprite m base cx cy n fb).1.pixel r c = !fb.pixel r c) ∧
      (¬ SpriteCovers m base cx cy n r c → (drawSprite m base cx cy n fb).1.pixel r c = fb.pixel r c) := by
  rcases Nat.eq_zero_or_pos n with rfl | hn
  · exact ⟨fun hcov => absurd hcov not_spriteCovers_zero, fun _ => rfl⟩
  · obtain ⟨hx, hy⟩ := h hn
    obtain ⟨hpix, -⟩ := drawRows_spec m base cx cy n (fb, false) hy (by omega)
    rw [drawSprite, hpix]
    exact ⟨fun hcov => by rw [spriteBit_and_inside_iff.2 hcov, Bool.xor_true],
      fun hout => by rw [Bool.eq_false_iff.2 (mt spriteBit_and_inside_iff.1 hout), Bool.xor_false]⟩

/-- The flag of a draw: some covered pixel was set. -/
theorem collision_drawSprite (h : 1 ≤ n → cx ≤ 56 ∧ cy + n ≤ 32) :
    (drawSprite m base cx cy n fb).2 = true ↔ ∃ r c, SpriteCovers m base cx cy n r c ∧ fb.pixel r c = true := by
  rcases Nat.eq_zero_or_pos n with rfl | hn
  · exact ⟨fun hfalse => absurd hfalse Bool.false_ne_true, fun ⟨_, _, hcov, _⟩ => absurd hcov not_spriteCovers_zero⟩
  · obtain ⟨hx, hy⟩ := h hn
    obtain ⟨-, hflag⟩ := drawRows_spec m base cx cy n (fb, false) hy (by omega)
    rw [drawSprite, hflag]
    constructor
    · rintro (hfalse | ⟨r, c, hr, hc, hbit, hset⟩)
      · exact absurd hfalse Bool.false_ne_true
      · refine ⟨cy + r, cx + c, ⟨by omega, by omega, by omega, by omega, ?_⟩, hset⟩
        rwa [Nat.add_sub_cancel_left, Nat.add_sub_cancel_left]
    · rintro ⟨r, c, ⟨hr1, hr2, hc1, hc2, hbit⟩, hset⟩
      refine .inr ⟨r - cy, c - cx, by omega, by omega, hbit, ?_⟩
      rwa [Nat.add_sub_cancel' hr1, Nat.add_sub_cancel' hc1]

end

/-- Settles O36: a sprite that fits is drawn, and the drawer's pixels and flag are those of the sprite's cover. -/
theorem drawInvertsTheSpritePixels : Obligations.DrawInvertsTheSpritePixels := by
  intro x y n s hfits
  have hrect (hn : 1 ≤ n) := (hfits hn).2
  have hcollision := collision_drawSprite (m := s.mem) (base := s.baseI) (fb := s.fb) hrect
  have hvf : (afterDraw x y n s).reg 15 = flagByte _ := s.reg_setReg_same regVF _
  refine ⟨_, execDrw_of_fits hfits, fun r c => (pixel_drawSprite hrect r c).1,
    fun r c => (pixel_drawSprite hrect r c).2, fun hset => ?_, fun hclear => ?_, rfl,
    fun r hr => s.reg_setReg_ne _ hr, rfl, rfl⟩
  · rw [hvf, hcollision.2 hset]; rfl
  · have hnone : ¬ ∃ r c, SpriteCovers s.mem s.baseI (s.reg x).toNat (s.reg y).toNat n r c ∧ s.fb.pixel r c = true :=
      fun ⟨r, c, hcov, hset⟩ => Bool.false_ne_true ((hclear r c hcov).symm.trans hset)
    rw [hvf, Bool.eq_false_iff.2 (mt hcollision.1 hnone)]; rfl

/-- Settles O38: the second draw meets the same sprite at the same place, so it inverts the same pixels back. -/
theorem drawingTwiceRestoresTheScreen : Obligations.DrawingTwiceRestoresTheScreen := by
  intro x y n s t hx hy h
  have hfits := execDrw_next_fits h
  obtain ⟨t', ht', hin, hout, -, -, -, hregs, -, hframe⟩ := drawInvertsTheSpritePixels x y n s hfits
  cases h.symm.trans ht'
  have hmem : t.mem = s.mem := by rw [hframe]
  have hi : t.i = s.i := by rw [hframe]
  have hfits' : 1 ≤ n → SpriteFits x y n t := by
    unfold SpriteFits; rw [hi, hregs x hx, hregs y hy]; exact hfits
  obtain ⟨u, hu, hin', hout', hcollision, -⟩ := drawInvertsTheSpritePixels x y n t hfits'
  rw [hmem, hi, hregs x hx, hregs y hy] at hin' hout' hcollision
  refine ⟨u, hu, Framebuffer.ext_pixel fun r c => ?_, fun hclear ⟨r, c, hcov⟩ => hcollision ⟨r, c, hcov, ?_⟩⟩
  · by_cases hcov : SpriteCovers s.mem s.i.toNat (s.reg x).toNat (s.reg y).toNat n r c
    · rw [hin' r c hcov, hin r c hcov, Bool.not_not]
    · rw [hout' r c hcov, hout r c hcov]
  · rw [hin r c hcov, hclear r c hcov]; rfl

end Sys2Proof.Machine

/-! The keypad instructions (45_keypad_timers.md), and which instruction raises which error and when (60_exceptions.md
R170 to R179). -/

namespace Sys2Proof.Machine

/-! ### The key skips and the wait -/

theorem keyIndex_of_gt {b : Byte} (h : 15 < b.toNat) : keyIndex b = .error (.keyIndexOutOfRange b) :=
  keyIndex_error.2 ⟨h, rfl⟩

theorem execSkp_of_key {x : Reg} {s : State} {k : Fin 16} (h : (s.reg x).toNat = k.val) :
    execSkp x s = .next (s.skipIf (s.keyPressed k)) := by
  rw [execSkp, keyIndex_ok.2 h]

theorem execSkp_of_gt {x : Reg} {s : State} (h : 15 < (s.reg x).toNat) :
    execSkp x s = .fault (.keyIndexOutOfRange (s.reg x)) := by
  rw [execSkp, keyIndex_of_gt h]; rfl

theorem execSknp_of_key {x : Reg} {s : State} {k : Fin 16} (h : (s.reg x).toNat = k.val) :
    execSknp x s = .next (s.skipIf (!s.keyPressed k)) := by
  rw [execSknp, keyIndex_ok.2 h]

theorem execSknp_of_gt {x : Reg} {s : State} (h : 15 < (s.reg x).toNat) :
    execSknp x s = .fault (.keyIndexOutOfRange (s.reg x)) := by
  rw [execSknp, keyIndex_of_gt h]; rfl

/-- Settles O39: the skip on the indexed key and the skip on its negation, or the index fault. -/
theorem keySkipsReadTheIndexedKey : Obligations.KeySkipsReadTheIndexedKey := by
  refine fun x s => ⟨fun k hk => ⟨execSkp_of_key hk, (execSknp_of_key hk).trans ?_⟩,
    fun h => ⟨execSkp_of_gt h, execSknp_of_gt h⟩⟩
  rw [State.skipIf, State.keyPressed]
  cases s.keys[k.val] <;> rfl

theorem execLdVxK_of_firstKey {x : Reg} {s : State} {k : Fin 16} (h : s.firstKey = some k) :
    execLdVxK x s = .next (s.setReg x (BitVec.ofNat 8 k.val)).advance := by
  rw [execLdVxK, h]

/-- With no key pressed the wait leaves everything, PC included (R35, R163). -/
theorem execLdVxK_of_no_key {x : Reg} {s : State} (h : ∀ k : Fin 16, s.keys[k.val] = false) :
    execLdVxK x s = .next s := by
  rw [execLdVxK, State.firstKey_none.2 h]

/-- Settles O40: the scan finds the least pressed key, whose index fits in a byte. -/
theorem waitForKeyTakesTheLeastPressedKey : Obligations.WaitForKeyTakesTheLeastPressedKey := by
  refine fun x s => ⟨fun k hk hlow => ?_, execLdVxK_of_no_key⟩
  have hfirst : s.firstKey = some k := State.firstKey_some.2 ⟨hk, hlow⟩
  have hbyte : (BitVec.ofNat 8 k.val).toNat = k.val := by rw [BitVec.toNat_ofNat]; omega
  exact exists_next_of_setReg_advance (·.toNat = k.val) (execLdVxK_of_firstKey hfirst) hbyte

/-! ### Which instruction raises what -/

/-- An outcome is the given fault, or, where none is given, a next state. -/
def Answers (o : Result) : Option Fault → Prop
  | some f => o = .fault f
  | none => ∃ t, o = .next t

/-- A test that raises `f` where `p` holds, and what follows it. -/
theorem Answers.ite {o : Result} {p : Prop} [Decidable p] {f : Fault} {rest : Option Fault} (hf : p → o = .fault f)
    (hrest : ¬ p → Answers o rest) : Answers o (if p then some f else rest) := by
  by_cases h : p
  · rw [if_pos h]; exact hf h
  · rw [if_neg h]; exact hrest h

/-- A register whose value is no fault of the key index names a key. -/
theorem exists_key_of_not_gt {b : Byte} (h : ¬ b.toNat > 15) : ∃ k : Fin 16, b.toNat = k.val :=
  ⟨⟨b.toNat, by omega⟩, rfl⟩

/-- Every instruction raises what the table gives it, and completes where the table gives nothing. -/
theorem exec_answers_raisedBy (i : Instr) (s : State) : Answers (exec i s) (raisedBy i s) := by
  cases i with
  | call nnn => exact .ite (execCall_of_sp_eq nnn) fun h => ⟨_, execCall_of_sp_lt nnn (by omega)⟩
  | ret =>
    refine .ite execRet_of_sp_zero fun h => ?_
    obtain ⟨k, hk⟩ := s.sp_eq_zero_or_succ.resolve_left h
    exact ⟨_, execRet_of_sp_succ hk⟩
  | skp x =>
    refine .ite execSkp_of_gt fun h => ?_
    obtain ⟨k, hk⟩ := exists_key_of_not_gt h
    exact ⟨_, execSkp_of_key hk⟩
  | sknp x =>
    refine .ite execSknp_of_gt fun h => ?_
    obtain ⟨k, hk⟩ := exists_key_of_not_gt h
    exact ⟨_, execSknp_of_key hk⟩
  | ldB x | stRegs x | ldRegs x =>
    exact .ite guardAccess_baseI_fault fun h => ⟨_, guardAccess_baseI_ok (Nat.not_lt.1 h)⟩
  | drw x y n =>
    refine .ite (fun h => execDrw_memory_fault h.1 h.2) fun hram => .ite (fun h => ?_) fun hrect => ?_
    · exact execDrw_rect_fault h.1 (Nat.not_lt.1 fun hgt => hram ⟨h.1, hgt⟩) h.2
    · exact ⟨_, execDrw_of_fits fun hn => ⟨by omega, by omega, by omega⟩⟩
  | ldVxK x =>
    cases hkey : s.firstKey with
    | some k => exact ⟨_, execLdVxK_of_firstKey hkey⟩
    | none => exact ⟨_, execLdVxK_of_no_key (State.firstKey_none.1 hkey)⟩
  | _ => exact ⟨_, rfl⟩

/-- Settles O11: the table of the errors is exact. -/
theorem raisesExactlyUnderTheListedConditions : Obligations.RaisesExactlyUnderTheListedConditions :=
  exec_answers_raisedBy

/-- An instruction raises an error exactly when the table gives it that one. -/
theorem exec_fault_iff {i : Instr} {s : State} {f : Fault} : exec i s = .fault f ↔ raisedBy i s = some f := by
  have hanswers := exec_answers_raisedBy i s
  cases hr : raisedBy i s with
  | some g =>
    rw [hr] at hanswers
    rw [show exec i s = .fault g from hanswers, Host.Outcome.fault.injEq, Option.some.injEq]
  | none =>
    rw [hr] at hanswers
    obtain ⟨t, ht⟩ := hanswers
    simp [ht]

/-- No instruction is refused. -/
theorem exec_next_or_fault (i : Instr) (s : State) : (∃ t, exec i s = .next t) ∨ ∃ f, exec i s = .fault f := by
  have hanswers := exec_answers_raisedBy i s
  cases hr : raisedBy i s with
  | some f => exact .inr ⟨f, exec_fault_iff.2 hr⟩
  | none => rw [hr] at hanswers; exact .inl hanswers

end Sys2Proof.Machine

/-! What a step does not depend on: a failed step fails again, dead stack entries and the redraw flag are not read
(60_exceptions.md sections 1, 4 and 7, 10_state.md section 5). -/

namespace Sys2Proof.Machine

/-! ### A failing step -/

/-- The table of the errors reads registers, I and SP alone. -/
theorem raisedBy_congr {s t : State} (hv : t.v = s.v) (hi : t.i = s.i) (hsp : t.sp = s.sp) (i : Instr) :
    raisedBy i t = raisedBy i s := by
  cases s; cases t; cases hv; cases hi; cases hsp
  cases i <;> rfl

/-- Fetch reads PC and memory alone. -/
theorem fetch_congr {s t : State} (hpc : t.pc = s.pc) (hmem : t.mem = s.mem) : fetch t = fetch s := by
  rw [fetch, fetch, hpc, hmem]

/-- A step fails in fetch, in dispatch or in the instruction's own tests, and fails the same way from any state that
agrees on what these read. -/
theorem step_fault_congr {s t : State} {f : Fault} (hpc : t.pc = s.pc) (hmem : t.mem = s.mem) (hv : t.v = s.v)
    (hi : t.i = s.i) (hsp : t.sp = s.sp) (h : step s = .fault f) : step t = .fault f := by
  rw [step] at h ⊢
  rw [fetch_congr hpc hmem]
  cases hfetch : fetch s with
  | error g => rw [hfetch] at h; exact h
  | ok op =>
    cases hdecode : decodeWord op with
    | none => simp only [hfetch, hdecode] at h ⊢; exact h
    | some i =>
      simp only [hfetch, hdecode, finishStep_fault, exec_fault_iff] at h ⊢
      rw [raisedBy_congr hv hi hsp, h]

theorem step_fault_of_stepCall {s : State} {f : Fault} (h : (stepCall s).2 = .fault f) : step s = .fault f := by
  rw [stepCall] at h
  cases hstep : step s with
  | next t => rw [hstep] at h; cases h
  | fault g => rw [hstep] at h; cases h; rfl
  | refused r => rw [hstep] at h; cases h

/-- Settles O50: the state is kept, and neither the keys nor the redraw flag are read by a step that fails. -/
theorem failedStepFailsAgain : Obligations.FailedStepFailsAgain := by
  intro s f h
  have hstep := step_fault_of_stepCall h
  have hstate := stepCall_fault_state h
  exact ⟨hstate, hstate.symm ▸ stepCall_of_fault hstep,
    fun _ => stepCall_of_fault (step_fault_congr (s := s) rfl rfl rfl rfl rfl hstep),
    stepCall_of_fault (step_fault_congr (s := s) rfl rfl rfl rfl rfl hstep)⟩

/-! ### The stack entries and the redraw flag -/

theorem State.Selects.step_next {s u : State} {i : Instr} (h : s.Selects i) (hexec : exec i s = .next u) :
    step s = .next u.tick := by
  rw [h.step_eq, hexec]; rfl

/-- No instruction but call and return reads a stack entry, and none reads the redraw flag: with other entries and
another flag it does the same, and only draw makes the flag what it was. -/
theorem exec_next_with_stack_redraw {i : Instr} {s u : State} (h : exec i s = .next u)
    (hcall : ∀ nnn, i ≠ .call nnn) (hret : i ≠ .ret) (stack : Vector Word 16) (redraw : Bool) :
    ∃ redraw', exec i { s with stack := stack, redraw := redraw } =
        .next { u with stack := stack, redraw := redraw' } ∧ (redraw = s.redraw → redraw' = u.redraw) := by
  cases i with
  | call nnn => exact absurd rfl (hcall nnn)
  | ret => exact absurd rfl hret
  | skp x => obtain ⟨k, hk, rfl⟩ := execSkp_next h; exact ⟨redraw, execSkp_of_key hk, id⟩
  | sknp x => obtain ⟨k, hk, rfl⟩ := execSknp_next h; exact ⟨redraw, execSknp_of_key hk, id⟩
  | ldVxK x =>
    cases hkey : s.firstKey with
    | some k => cases (execLdVxK_of_firstKey hkey).symm.trans h; exact ⟨redraw, execLdVxK_of_firstKey hkey, id⟩
    | none =>
      have hnone := State.firstKey_none.1 hkey
      cases (execLdVxK_of_no_key hnone).symm.trans h; exact ⟨redraw, execLdVxK_of_no_key hnone, id⟩
  | drw x y n =>
    have hfits := execDrw_next_fits h
    cases (execDrw_of_fits hfits).symm.trans h; exact ⟨true, execDrw_of_fits hfits, fun _ => rfl⟩
  | ldB x | stRegs x | ldRegs x =>
    obtain ⟨hram, hnext⟩ := guardAccess_next h
    cases hnext; exact ⟨redraw, guardAccess_ok hram, id⟩
  | _ => cases h; exact ⟨redraw, rfl, id⟩

/-- An instruction from two states that differ in dead stack entries: a call makes the entry it writes live in both, a
return reads a live one. -/
theorem SameButDeadStack.exec_next {i : Instr} {s t u : State} (hst : SameButDeadStack s t) (h : exec i s = .next u) :
    ∃ w, exec i t = .next w ∧ SameButDeadStack u w := by
  obtain ⟨hframe, hlive⟩ := hst
  generalize t.stack = stack at hframe hlive
  subst hframe
  have hspecial := specialStateIsWrittenOnlyByTheNamedInstructions i s u h
  obtain ⟨-, -, -, hsp, hstack, -⟩ := hspecial
  cases i with
  | call nnn =>
    obtain ⟨hs, rfl⟩ := execCall_next_push h
    refine ⟨_, execCall_of_sp_lt nnn (s := { s with stack := stack }) hs, rfl, fun k hk => ?_⟩
    by_cases hnew : s.sp.val = k.val
    · simp only [hnew, Vector.getElem_set_self]
    · have hold : k.val < s.sp.val := lt_of_le_of_ne (Nat.le_of_lt_succ hk) (Ne.symm hnew)
      simpa only [Vector.getElem_set_ne _ _ hnew] using hlive k hold
  | ret =>
    obtain ⟨k, hk, rfl⟩ := execRet_next_pop h
    have hpop := execRet_of_sp_succ (s := { s with stack := stack }) hk
    rw [hlive k (by omega)] at hpop
    exact ⟨_, hpop, rfl, fun j hj => hlive j (by have : j.val < k.val := hj; omega)⟩
  | _ =>
    obtain ⟨redraw, hexec, hredraw⟩ := exec_next_with_stack_redraw h nofun nofun stack s.redraw
    cases hredraw rfl
    refine ⟨_, hexec, rfl, fun k hk => ?_⟩
    rw [hsp nofun nofun] at hk
    simpa only [hstack nofun] using hlive k hk

/-- Settles O45: fetch and decode read no stack entry, and the tick writes none. -/
theorem deadStackEntriesAreUnobservable : Obligations.DeadStackEntriesAreUnobservable := by
  intro s t hst
  have hframe := hst.1
  have hpc : t.pc = s.pc := by rw [hframe]
  have hmem : t.mem = s.mem := by rw [hframe]
  refine ⟨fun u h => ?_, fun f h => ?_⟩
  · obtain ⟨i, v, hselects, hexec, rfl⟩ := step_next_selects h
    obtain ⟨w, hw, hvw, hlive⟩ := hst.exec_next hexec
    have hselects' : t.Selects i := by
      unfold State.Selects State.wordAtPc; rw [hpc, hmem]; exact hselects
    exact ⟨w.tick, hselects'.step_next hw, congrArg State.tick hvw, hlive⟩
  · exact step_fault_congr hpc hmem (by rw [hframe]) (by rw [hframe]) (by rw [hframe]) h

/-! ### Runs with another redraw flag -/

/-- An instruction from a state with another redraw flag does the same up to that flag. -/
theorem exec_next_with_redraw {i : Instr} {s u : State} (h : exec i s = .next u) (redraw : Bool) :
    ∃ redraw', exec i { s with redraw := redraw } = .next { u with redraw := redraw' } := by
  have hspecial := specialStateIsWrittenOnlyByTheNamedInstructions i s u h
  obtain ⟨-, -, -, -, hstack, -⟩ := hspecial
  cases i with
  | call nnn =>
    obtain ⟨hs, rfl⟩ := execCall_next_push h
    exact ⟨redraw, execCall_of_sp_lt nnn (s := { s with redraw := redraw }) hs⟩
  | ret =>
    obtain ⟨k, hk, rfl⟩ := execRet_next_pop h
    exact ⟨redraw, execRet_of_sp_succ (s := { s with redraw := redraw }) hk⟩
  | _ =>
    obtain ⟨redraw', hexec, -⟩ := exec_next_with_stack_redraw h nofun nofun s.stack redraw
    exact ⟨redraw', hexec.trans (by rw [← hstack nofun])⟩

theorem step_next_with_redraw {s u : State} (h : step s = .next u) (redraw : Bool) :
    ∃ redraw', step { s with redraw := redraw } = .next { u with redraw := redraw' } := by
  obtain ⟨i, v, hselects, hexec, rfl⟩ := step_next_selects h
  obtain ⟨redraw', hexec'⟩ := exec_next_with_redraw hexec redraw
  have hselects' : State.Selects { s with redraw := redraw } i := hselects
  exact ⟨redraw', hselects'.step_next hexec'⟩

/-- On every machine, a step and then a run of `k` steps is a run of `k + 1`. -/
theorem coreRun_succ_of_next {M : Host.Core} {k : Nat} {s u t : M.State} (hstep : M.step s = .next u)
    (h : M.run k u = .next t) : M.run (k + 1) s = .next t := by
  unfold Host.Core.run
  rw [hstep]; exact h

theorem RunsTo.of_step {n : Nat} {s u t : State} (hstep : step s = .next u) (h : RunsTo n u t) : RunsTo (n + 1) s t :=
  coreRun_succ_of_next (M := core) hstep h

theorem RunsTo.with_redraw {n : Nat} {s t : State} (h : RunsTo n s t) (redraw : Bool) :
    ∃ redraw', RunsTo n { s with redraw := redraw } { t with redraw := redraw' } := by
  induction n generalizing s redraw with
  | zero => cases h.eq_of_zero; exact ⟨redraw, rfl⟩
  | succ n ih =>
    obtain ⟨u, hstep, hrest⟩ := h.exists_step
    obtain ⟨redrawNext, hstep'⟩ := step_next_with_redraw hstep redraw
    obtain ⟨redraw', hrest'⟩ := ih hrest redrawNext
    exact ⟨redraw', hrest'.of_step hstep'⟩

/-- Settles O51, by induction on the number of steps, with the flag of every state free. -/
theorem redrawFlagDoesNotAffectRuns : Obligations.RedrawFlagDoesNotAffectRuns := fun _ _ _ h => h.with_redraw false

end Sys2Proof.Machine

/-! No state is final (40_step_cycle.md R97): every step is answered, the end of a run and a wait for a key only tick,
and a run that has ended stays ended. -/

namespace Sys2Proof.Machine

/-! ### The answers of a step, the end of a run, and the wait for a key -/

/-- Every step is answered: it succeeds or raises an error. -/
theorem step_next_or_fault (s : State) : (∃ t, step s = .next t) ∨ ∃ f, step s = .fault f := by
  rcases Nat.lt_or_ge 0xFFE s.pc.toNat with hpc | hpc
  · exact .inr ⟨_, step_of_fetch_error (fetch_error hpc)⟩
  · cases hdecode : decodeWord (BitVec.ofNat 16 s.wordAtPc) with
    | none => exact .inr ⟨_, step_of_decodeWord_none hpc hdecode⟩
    | some i =>
      have hselects : s.Selects i := ⟨hpc, hdecode⟩
      rcases exec_next_or_fault i s with ⟨t, ht⟩ | ⟨f, hf⟩
      · exact .inl ⟨_, hselects.step_next ht⟩
      · exact .inr ⟨f, hselects.step_eq.trans (finishStep_fault.2 hf)⟩

/-- A jump to its own address changes nothing, so the step only ticks. -/
theorem State.AtRunEnd.step_eq {s : State} (h : s.AtRunEnd) : step s = .next s.tick := by
  obtain ⟨nnn, hnnn, hselects⟩ := h
  have htarget : addrOf nnn = s.pc := BitVec.eq_of_toNat_eq ((toNat_addrOf nnn).trans hnnn)
  have hexec : exec (.jp nnn) s = .next s := congrArg (fun w => Host.Outcome.next (s.setPc w)) htarget
  exact hselects.step_next hexec

/-- A wait with no key pressed changes nothing, so the step only ticks. -/
theorem State.AwaitingKey.step_eq {s : State} (h : s.AwaitingKey) : step s = .next s.tick := by
  obtain ⟨⟨x, hselects⟩, hkeys⟩ := h
  exact hselects.step_next (execLdVxK_of_no_key hkeys)

/-- A wait completes when some key is pressed. -/
theorem State.Selects.step_of_pressed {s : State} {x : Reg} {k : Fin 16} (h : s.Selects (.ldVxK x))
    (hk : s.keys[k.val] = true) : ∃ t, step s = .next t ∧ t.pc = s.pc + 2#16 := by
  cases hkey : s.firstKey with
  | some j => exact ⟨_, h.step_next (execLdVxK_of_firstKey hkey), rfl⟩
  | none => exact absurd ((State.firstKey_none.1 hkey k).symm.trans hk) Bool.false_ne_true

/-- Settles O52: the answers of a step, the tick alone at a run's end and in a wait, and the end of the wait. -/
theorem noStateIsFinal : Obligations.NoStateIsFinal := by
  refine fun s => ⟨?_, fun h => ?_, fun ⟨⟨x, hselects⟩, _⟩ keys k hk => ?_⟩
  · rcases step_next_or_fault s with ⟨t, ht⟩ | ⟨f, hf⟩
    · exact .inl ⟨t, stepCall_of_next ht⟩
    · exact .inr ⟨f, stepCall_of_fault hf⟩
  · rw [← State.tick_eq_ofNat]
    exact stepCall_of_next (h.elim State.AtRunEnd.step_eq State.AwaitingKey.step_eq)
  · have hselects' : (s.writeKeys keys).Selects (.ldVxK x) := hselects
    obtain ⟨t, hstep, hpc⟩ := hselects'.step_of_pressed hk
    exact ⟨t, stepCall_of_next hstep, hpc⟩

/-! ### Steps after the end of a run -/

/-- The state with both timers counted down by `k`. -/
def State.countedDown (s : State) (k : Nat) : State :=
  { s with dt := BitVec.ofNat 8 (s.dt.toNat - k), st := BitVec.ofNat 8 (s.st.toNat - k) }

theorem State.countedDown_zero (s : State) : s.countedDown 0 = s := by
  simp [State.countedDown]

theorem countDown_ofNat_sub (b : Byte) (k : Nat) :
    countDown (BitVec.ofNat 8 (b.toNat - k)) = BitVec.ofNat 8 (b.toNat - (k + 1)) := by
  have hlt : b.toNat - k < 2 ^ 8 := by omega
  rw [countDown_eq_ofNat, BitVec.toNat_ofNat, Nat.mod_eq_of_lt hlt, Nat.sub_sub]

theorem State.tick_countedDown (s : State) (k : Nat) : (s.countedDown k).tick = s.countedDown (k + 1) := by
  simp only [State.tick, State.countedDown, countDown_ofNat_sub]

/-- A run of `n` steps and then a step is a run of `n + 1`. -/
theorem RunsTo.then_step {n : Nat} {s t u : State} (h : RunsTo n s t) (hstep : step t = .next u) :
    RunsTo (n + 1) s u := by
  induction n generalizing s with
  | zero => cases h.eq_of_zero; exact RunsTo.of_step hstep rfl
  | succ n ih =>
    obtain ⟨v, hfirst, hrest⟩ := h.exists_step
    exact RunsTo.of_step hfirst (ih hrest)

/-- A run that has ended goes on for `k` steps, each of which only ticks. -/
theorem RunEndsAt.countedDown {n : Nat} {s t : State} (h : RunEndsAt n s t) (k : Nat) :
    RunEndsAt (n + k) s (t.countedDown k) := by
  induction k with
  | zero => rw [State.countedDown_zero]; exact h
  | succ k ih =>
    obtain ⟨hrun, hend⟩ := ih
    have hstep := hend.step_eq
    rw [State.tick_countedDown] at hstep
    exact ⟨hrun.then_step hstep, hend⟩

/-- Settles O53, by induction on the further steps; the end of a run is a condition on PC and memory, which neither the
timers nor the host's writes touch. -/
theorem runEndIsKeptByEveryFurtherStep : Obligations.RunEndIsKeptByEveryFurtherStep := fun _ k _ _ h =>
  ⟨h.countedDown k, fun _ => h.2, h.2⟩

end Sys2Proof.Machine

/-! Reset and load (70_reset_and_hazards.md sections 1 and 2). -/

namespace Sys2Proof.Machine

/-! ### Load -/

/-- The `k`-th byte of a run that was written, as an element of the run. -/
theorem Memory.read_writeBytes_getElem (m : Memory) (base : Nat) {bs : List Byte} {k : Nat} (hk : k < bs.length) :
    (m.writeBytes base bs).read (base + k) = bs[k] := by
  rw [Memory.read_writeBytes_add m base hk, List.getD_eq_getElem bs _ hk]

/-- Settles O49: the image goes to 0x200 and on, and an error gives the host the state it had. -/
theorem loadCopiesTheImage : Obligations.LoadCopiesTheImage := by
  refine fun bytes s => ⟨fun hlen => ⟨_, loadImage_of_length_le hlen s, fun k => ?_, fun a ha => ?_, rfl⟩,
    fun hlen => ?_⟩
  · exact s.mem.read_writeBytes_getElem 0x200 k.isLt
  · exact s.mem.read_writeBytes_out ha
  · have hload := loadImage_of_length_gt hlen s
    exact ⟨hload, congrArg (settleResult s) hload⟩

/-! ### Reset -/

theorem State.resetWith_mem (font : Vector Byte 80) :
    (State.resetWith font).mem = Memory.writeBytes [] 0 font.toList := rfl

/-- Above the 80 bytes of the FONT an unlisted address reads as zero. -/
theorem Memory.unlisted_eq_zero {a : Nat} (ha : 0x50 ≤ a) : Memory.unlisted a = 0#8 :=
  List.getD_eq_default defaultFont _ ha

theorem State.reset_reg (r : Reg) : State.reset.reg r = 0#8 := Vector.getElem_replicate r.isLt

/-- Settles O46: the FONT is written from address 0 on, over a memory that lists nothing. -/
theorem resetLeavesTheInitialState : Obligations.ResetLeavesTheInitialState := by
  refine fun font => ⟨rfl, rfl, State.reset_reg, fun k => ?_, fun a ha => ?_⟩
  · have hread := Memory.read_writeBytes_getElem [] 0 (bs := font.toList) (k := k.val) (by simp)
    rwa [Nat.zero_add, Vector.getElem_toList] at hread
  · have hout : ¬ (0 ≤ a ∧ a < 0 + font.toList.length) := by simpa using ha
    rw [State.resetWith_mem, Memory.read_writeBytes_out _ hout]
    exact Memory.unlisted_eq_zero ha

/-- Settles O47: the fields are those of `State.reset`, and the default FONT written at its place lists nothing. -/
theorem resetZeroesTheDecidedState : Obligations.ResetZeroesTheDecidedState := by
  refine ⟨fun font => ⟨rfl, rfl, rfl, pixel_clearScreen, fun k => Vector.getElem_replicate k.isLt, rfl⟩,
    fun font hfont => ?_⟩
  have hmem : (State.resetWith font).mem = [] := by
    rw [State.resetWith_mem, hfont, Memory.writeBytes_defaultFont]
  exact congrArg (fun m => { State.reset with mem := m }) hmem

end Sys2Proof.Machine
